-- ==== Sys2Proof/Word.lean ====
section
/-! DEFINITION. The widths of the block's values (spec/00_scope.md R6, R7): every value is an unsigned natural. -/

namespace Sys2Proof

/-- A byte: a register V[i], a timer, a byte of memory, an immediate `kk` (R20, R30, R50, R73). -/
abbrev Byte := BitVec 8

/-- Sixteen bits: `pc`, `I`, a stack slot, an opcode (R24, R27, R28, R71). -/
abbrev Word := BitVec 16

/-- The 12-bit address field `nnn` of an opcode (R73). -/
abbrev Addr := BitVec 12

/-- The number of a general register, 0 to 15; register 15 is VF (R20, R21). -/
abbrev Reg := Fin 16

/-- VF, the register that is also the flag (R21). -/
abbrev Reg.vf : Reg := 15

end Sys2Proof
end

