-- ==== Sys2Proof/Syntax.lean ====
section
/-! DEFINITION. The instructions: one constructor for each row of spec/opcode_table.json, in the table's order. -/

namespace Sys2Proof

/-- An instruction with the operands its row gives it (spec/30_encoding.md R72, R73, R75, R80). -/
inductive Instr where
  /-- 00E0 `CLS`, R160 -/
  | cls
  /-- 00EE `RET`, R102 -/
  | ret
  /-- 1nnn `JP nnn`, R101 -/
  | jp (nnn : Addr)
  /-- 2nnn `CALL nnn`, R100 -/
  | call (nnn : Addr)
  /-- 3xkk `SE Vx, kk`, R104 -/
  | seImm (x : Reg) (kk : Byte)
  /-- 4xkk `SNE Vx, kk`, R105 -/
  | sneImm (x : Reg) (kk : Byte)
  /-- 5xy0 `SE Vx, Vy`, R106 -/
  | seReg (x y : Reg)
  /-- 6xkk `LD Vx, kk`, R121 -/
  | ldImm (x : Reg) (kk : Byte)
  /-- 7xkk `ADD Vx, kk`, R122 -/
  | addImm (x : Reg) (kk : Byte)
  /-- 8xy0 `LD Vx, Vy`, R123 -/
  | ldReg (x y : Reg)
  /-- 8xy1 `OR Vx, Vy`, R124 -/
  | orReg (x y : Reg)
  /-- 8xy2 `AND Vx, Vy`, R125 -/
  | andReg (x y : Reg)
  /-- 8xy3 `XOR Vx, Vy`, R126 -/
  | xorReg (x y : Reg)
  /-- 8xy4 `ADD Vx, Vy`, R128 -/
  | addReg (x y : Reg)
  /-- 8xy5 `SUB Vx, Vy`, R129 -/
  | sub (x y : Reg)
  /-- 8xy6 `SHR Vx, Vy`, R130; y is kept so that a word can be written back whole, and ignored -/
  | shr (x y : Reg)
  /-- 8xy7 `SUBN Vx, Vy`, R131 -/
  | subn (x y : Reg)
  /-- 8xyE `SHL Vx, Vy`, R132; y is kept and ignored, as in 8xy6 -/
  | shl (x y : Reg)
  /-- 9xy0 `SNE Vx, Vy`, R107 -/
  | sneReg (x y : Reg)
  /-- Annn `LD I, nnn`, R140 -/
  | ldI (nnn : Addr)
  /-- Bnnn `JP V0, nnn`, R103 -/
  | jpV0 (nnn : Addr)
  /-- Cxkk `RND Vx, kk`, R133 -/
  | rnd (x : Reg) (kk : Byte)
  /-- Dxyn `DRW Vx, Vy, n`, R161; `n` is a count of rows, 0 to 15 (`WellFormed.lean`) -/
  | drw (x y : Reg) (n : Nat)
  /-- Ex9E `SKP Vx`, R180 -/
  | skp (x : Reg)
  /-- ExA1 `SKNP Vx`, R181 -/
  | sknp (x : Reg)
  /-- Fx07 `LD Vx, DT`, R190 -/
  | ldVxDt (x : Reg)
  /-- Fx0A `LD Vx, K`, R182 -/
  | ldK (x : Reg)
  /-- Fx15 `LD DT, Vx`, R191 -/
  | ldDt (x : Reg)
  /-- Fx18 `LD ST, Vx`, R192 -/
  | ldSt (x : Reg)
  /-- Fx1E `ADD I, Vx`, R141 -/
  | addI (x : Reg)
  /-- Fx29 `LD F, Vx`, R142 -/
  | ldF (x : Reg)
  /-- Fx33 `LD B, Vx`, R143 -/
  | ldB (x : Reg)
  /-- Fx55 `LD [I], Vx`, R144 -/
  | stRegs (x : Reg)
  /-- Fx65 `LD Vx, [I]`, R145 -/
  | ldRegs (x : Reg)
  deriving DecidableEq, Repr

end Sys2Proof
end

