-- ==== Sys2Proof/Decode.lean ====
section
/-! DEFINITION. The decoder and the encoder (spec/30_encoding.md R70 to R86). Decoding is total: every word is an
instruction or is rejected by name; the engine runs a rejected word as the no-op of R77 (Machine/Cycle.lean). -/

namespace Sys2Proof

/-- Why a decode gives no instruction. -/
inductive Reject where
  /-- fewer than the two bytes of an instruction (R71) -/
  | truncated
  /-- an unknown opcode that is no near miss: a no-op (R77) -/
  | unknownOpcode (op : Word)
  /-- an unknown opcode that a looser reading of the sub-keys would take for an instruction (R78) -/
  | nearMiss (op : Word)
  deriving DecidableEq, Repr

/-! ### The fields of an opcode (R73) -/

/-- `family = op[15:12]` -/
def Field.family (op : Word) : BitVec 4 := op.extractLsb' 12 4

/-- `x = op[11:8]` -/
def Field.x (op : Word) : Reg := ⟨(op.extractLsb' 8 4).toNat, (op.extractLsb' 8 4).isLt⟩

/-- `y = op[7:4]` -/
def Field.y (op : Word) : Reg := ⟨(op.extractLsb' 4 4).toNat, (op.extractLsb' 4 4).isLt⟩

/-- `kk = op[7:0]` -/
def Field.kk (op : Word) : Byte := op.extractLsb' 0 8

/-- `nnn = op[11:0]` -/
def Field.nnn (op : Word) : Addr := op.extractLsb' 0 12

/-- `n = op[3:0]` -/
def Field.n (op : Word) : BitVec 4 := op.extractLsb' 0 4

/-! ### Dispatch (R75) -/

/-- The near-miss opcodes (R78): family 0 with a low byte E0 or EE and x not 0, families 5 and 9 with n not 0, family E
with the low nibble of a row and another nibble before it. -/
def isNearMiss (op : Word) : Bool :=
  match Field.family op with
  | 0x0#4 => Field.x op != 0 && (Field.kk op == 0xE0#8 || Field.kk op == 0xEE#8)
  | 0x5#4 | 0x9#4 => Field.n op != 0#4
  | 0xE#4 => Field.n op == 0xE#4 && Field.y op != 9 || Field.n op == 0x1#4 && Field.y op != 10
  | _ => false

/-- The name under which a word that matches no row is rejected (R77, R78). -/
def reject (op : Word) : Except Reject Instr :=
  if isNearMiss op then .error (.nearMiss op) else .error (.unknownOpcode op)

/-- Family 0x0, keyed on `op[11:0]` (R75). -/
def decodeFamily0 (op : Word) : Except Reject Instr :=
  match Field.nnn op with
  | 0x0E0#12 => .ok .cls
  | 0x0EE#12 => .ok .ret
  | _ => reject op

/-- Family 0x8, keyed on `op[3:0]` (R75). -/
def decodeFamily8 (op : Word) : Except Reject Instr :=
  match Field.n op with
  | 0x0#4 => .ok (.ldReg (Field.x op) (Field.y op))
  | 0x1#4 => .ok (.orReg (Field.x op) (Field.y op))
  | 0x2#4 => .ok (.andReg (Field.x op) (Field.y op))
  | 0x3#4 => .ok (.xorReg (Field.x op) (Field.y op))
  | 0x4#4 => .ok (.addReg (Field.x op) (Field.y op))
  | 0x5#4 => .ok (.sub (Field.x op) (Field.y op))
  | 0x6#4 => .ok (.shr (Field.x op) (Field.y op))
  | 0x7#4 => .ok (.subn (Field.x op) (Field.y op))
  | 0xE#4 => .ok (.shl (Field.x op) (Field.y op))
  | _ => reject op

/-- Family 0xE, keyed on `op[7:0]` (R75). -/
def decodeFamilyE (op : Word) : Except Reject Instr :=
  match Field.kk op with
  | 0x9E#8 => .ok (.skp (Field.x op))
  | 0xA1#8 => .ok (.sknp (Field.x op))
  | _ => reject op

/-- Family 0xF, keyed on `op[7:0]` (R75). -/
def decodeFamilyF (op : Word) : Except Reject Instr :=
  match Field.kk op with
  | 0x07#8 => .ok (.ldVxDt (Field.x op))
  | 0x0A#8 => .ok (.ldK (Field.x op))
  | 0x15#8 => .ok (.ldDt (Field.x op))
  | 0x18#8 => .ok (.ldSt (Field.x op))
  | 0x1E#8 => .ok (.addI (Field.x op))
  | 0x29#8 => .ok (.ldF (Field.x op))
  | 0x33#8 => .ok (.ldB (Field.x op))
  | 0x55#8 => .ok (.stRegs (Field.x op))
  | 0x65#8 => .ok (.ldRegs (Field.x op))
  | _ => reject op

/-- `Decode(op)`: the instruction whose row's fixed nibbles `op` matches (R74, R75), or the name it is rejected under. -/
def decodeWord (op : Word) : Except Reject Instr :=
  match Field.family op with
  | 0x0#4 => decodeFamily0 op
  | 0x1#4 => .ok (.jp (Field.nnn op))
  | 0x2#4 => .ok (.call (Field.nnn op))
  | 0x3#4 => .ok (.seImm (Field.x op) (Field.kk op))
  | 0x4#4 => .ok (.sneImm (Field.x op) (Field.kk op))
  | 0x5#4 => if Field.n op = 0#4 then .ok (.seReg (Field.x op) (Field.y op)) else reject op
  | 0x6#4 => .ok (.ldImm (Field.x op) (Field.kk op))
  | 0x7#4 => .ok (.addImm (Field.x op) (Field.kk op))
  | 0x8#4 => decodeFamily8 op
  | 0x9#4 => if Field.n op = 0#4 then .ok (.sneReg (Field.x op) (Field.y op)) else reject op
  | 0xA#4 => .ok (.ldI (Field.nnn op))
  | 0xB#4 => .ok (.jpV0 (Field.nnn op))
  | 0xC#4 => .ok (.rnd (Field.x op) (Field.kk op))
  | 0xD#4 => .ok (.drw (Field.x op) (Field.y op) (Field.n op).toNat)
  | 0xE#4 => decodeFamilyE op
  | 0xF#4 => decodeFamilyF op
  | _ => reject op

/-- The opcode that two bytes make, most significant byte first (R52, R71). -/
def opcodeOfBytes (hi lo : Byte) : Word := hi ++ lo

/-- An opcode's two bytes, in the order they stand in memory (R52). -/
def bytesOfOpcode (op : Word) : Byte × Byte := (op.extractLsb' 8 8, op.extractLsb' 0 8)

/-- Decode the first instruction of a list of bytes, giving it with the bytes after it; total on any bytes. -/
def decodeBytes : List Byte → Except Reject (Instr × List Byte)
  | hi :: lo :: rest =>
    match decodeWord (opcodeOfBytes hi lo) with
    | .ok i => .ok (i, rest)
    | .error e => .error e
  | [_] | [] => .error .truncated

/-! ### The encoder (R72, R73) -/

/-- A register number as the 4-bit selector of an opcode (R20). -/
def regBits (r : Reg) : BitVec 4 := BitVec.ofNat 4 r.val

/-- The word of an instruction: its row's fixed bits and its operands in their fields (R72, R75). -/
def encodeWord : Instr → Word
  | .cls => 0x00E0#16
  | .ret => 0x00EE#16
  | .jp nnn => 0x1#4 ++ nnn
  | .call nnn => 0x2#4 ++ nnn
  | .seImm x kk => 0x3#4 ++ regBits x ++ kk
  | .sneImm x kk => 0x4#4 ++ regBits x ++ kk
  | .seReg x y => 0x5#4 ++ regBits x ++ regBits y ++ 0x0#4
  | .ldImm x kk => 0x6#4 ++ regBits x ++ kk
  | .addImm x kk => 0x7#4 ++ regBits x ++ kk
  | .ldReg x y => 0x8#4 ++ regBits x ++ regBits y ++ 0x0#4
  | .orReg x y => 0x8#4 ++ regBits x ++ regBits y ++ 0x1#4
  | .andReg x y => 0x8#4 ++ regBits x ++ regBits y ++ 0x2#4
  | .xorReg x y => 0x8#4 ++ regBits x ++ regBits y ++ 0x3#4
  | .addReg x y => 0x8#4 ++ regBits x ++ regBits y ++ 0x4#4
  | .sub x y => 0x8#4 ++ regBits x ++ regBits y ++ 0x5#4
  | .shr x y => 0x8#4 ++ regBits x ++ regBits y ++ 0x6#4
  | .subn x y => 0x8#4 ++ regBits x ++ regBits y ++ 0x7#4
  | .shl x y => 0x8#4 ++ regBits x ++ regBits y ++ 0xE#4
  | .sneReg x y => 0x9#4 ++ regBits x ++ regBits y ++ 0x0#4
  | .ldI nnn => 0xA#4 ++ nnn
  | .jpV0 nnn => 0xB#4 ++ nnn
  | .rnd x kk => 0xC#4 ++ regBits x ++ kk
  | .drw x y n => 0xD#4 ++ regBits x ++ regBits y ++ BitVec.ofNat 4 n
  | .skp x => 0xE#4 ++ regBits x ++ 0x9E#8
  | .sknp x => 0xE#4 ++ regBits x ++ 0xA1#8
  | .ldVxDt x => 0xF#4 ++ regBits x ++ 0x07#8
  | .ldK x => 0xF#4 ++ regBits x ++ 0x0A#8
  | .ldDt x => 0xF#4 ++ regBits x ++ 0x15#8
  | .ldSt x => 0xF#4 ++ regBits x ++ 0x18#8
  | .addI x => 0xF#4 ++ regBits x ++ 0x1E#8
  | .ldF x => 0xF#4 ++ regBits x ++ 0x29#8
  | .ldB x => 0xF#4 ++ regBits x ++ 0x33#8
  | .stRegs x => 0xF#4 ++ regBits x ++ 0x55#8
  | .ldRegs x => 0xF#4 ++ regBits x ++ 0x65#8

/-- The bytes of an instruction as they stand in memory (R71). -/
def encode (i : Instr) : List Byte :=
  [(bytesOfOpcode (encodeWord i)).1, (bytesOfOpcode (encodeWord i)).2]

/-! ### The opcode table as data (R75, R83) -/

/-- A row of spec/opcode_table.json: its mnemonic, its fixed bits and which bits they are. -/
structure Row where
  mnemonic : String
  pattern : Word
  mask : Word
  deriving DecidableEq, Repr

/-- The row an instruction belongs to, as spec/opcode_table.json prints its match and mask. -/
def Instr.row : Instr → Row
  | .cls => ⟨"CLS", 0x00E0, 0xFFFF⟩
  | .ret => ⟨"RET", 0x00EE, 0xFFFF⟩
  | .jp _ => ⟨"JP", 0x1000, 0xF000⟩
  | .call _ => ⟨"CALL", 0x2000, 0xF000⟩
  | .seImm _ _ => ⟨"SE_IMM", 0x3000, 0xF000⟩
  | .sneImm _ _ => ⟨"SNE_IMM", 0x4000, 0xF000⟩
  | .seReg _ _ => ⟨"SE_REG", 0x5000, 0xF00F⟩
  | .ldImm _ _ => ⟨"LD_IMM", 0x6000, 0xF000⟩
  | .addImm _ _ => ⟨"ADD_IMM", 0x7000, 0xF000⟩
  | .ldReg _ _ => ⟨"LD_REG", 0x8000, 0xF00F⟩
  | .orReg _ _ => ⟨"OR", 0x8001, 0xF00F⟩
  | .andReg _ _ => ⟨"AND", 0x8002, 0xF00F⟩
  | .xorReg _ _ => ⟨"XOR", 0x8003, 0xF00F⟩
  | .addReg _ _ => ⟨"ADD_REG", 0x8004, 0xF00F⟩
  | .sub _ _ => ⟨"SUB", 0x8005, 0xF00F⟩
  | .shr _ _ => ⟨"SHR", 0x8006, 0xF00F⟩
  | .subn _ _ => ⟨"SUBN", 0x8007, 0xF00F⟩
  | .shl _ _ => ⟨"SHL", 0x800E, 0xF00F⟩
  | .sneReg _ _ => ⟨"SNE_REG", 0x9000, 0xF00F⟩
  | .ldI _ => ⟨"LD_I", 0xA000, 0xF000⟩
  | .jpV0 _ => ⟨"JP_V0", 0xB000, 0xF000⟩
  | .rnd _ _ => ⟨"RND", 0xC000, 0xF000⟩
  | .drw _ _ _ => ⟨"DRW", 0xD000, 0xF000⟩
  | .skp _ => ⟨"SKP", 0xE09E, 0xF0FF⟩
  | .sknp _ => ⟨"SKNP", 0xE0A1, 0xF0FF⟩
  | .ldVxDt _ => ⟨"LD_VX_DT", 0xF007, 0xF0FF⟩
  | .ldK _ => ⟨"LD_K", 0xF00A, 0xF0FF⟩
  | .ldDt _ => ⟨"LD_DT", 0xF015, 0xF0FF⟩
  | .ldSt _ => ⟨"LD_ST", 0xF018, 0xF0FF⟩
  | .addI _ => ⟨"ADD_I", 0xF01E, 0xF0FF⟩
  | .ldF _ => ⟨"LD_F", 0xF029, 0xF0FF⟩
  | .ldB _ => ⟨"LD_B", 0xF033, 0xF0FF⟩
  | .stRegs _ => ⟨"ST_REGS", 0xF055, 0xF0FF⟩
  | .ldRegs _ => ⟨"LD_REGS", 0xF065, 0xF0FF⟩

/-- One instruction of each row, in the table's order (R80). -/
def sampleInstrs : List Instr :=
  [.cls, .ret, .jp 0, .call 0, .seImm 0 0, .sneImm 0 0, .seReg 0 0, .ldImm 0 0, .addImm 0 0, .ldReg 0 0,
    .orReg 0 0, .andReg 0 0, .xorReg 0 0, .addReg 0 0, .sub 0 0, .shr 0 0, .subn 0 0] ++
  [.shl 0 0, .sneReg 0 0, .ldI 0, .jpV0 0, .rnd 0 0, .drw 0 0 0, .skp 0, .sknp 0, .ldVxDt 0, .ldK 0, .ldDt 0,
    .ldSt 0, .addI 0, .ldF 0, .ldB 0, .stRegs 0, .ldRegs 0]

/-- The opcode table: its 34 rows. -/
def opcodeTable : List Row := sampleInstrs.map Instr.row

/-- A word matches a row when its fixed bits are the row's: `(op & mask) = match` (R75). -/
def Row.Matches (r : Row) (op : Word) : Prop := op &&& r.mask = r.pattern

/-! ### The table's words, as the host hands them over -/

/-- The opcode that spec/opcode_table.json numbers: one 16-bit word, every bit at or above `nbits` zero. -/
def opcodeOfTableWord (nbits w : Nat) : Word := BitVec.ofNat 16 (w % 2 ^ nbits)

/-- The instruction the decoder reads from that word, laid out in memory order (high byte first, R52). -/
def decodeTableWord (nbits w : Nat) : Option Instr :=
  match decodeBytes [(bytesOfOpcode (opcodeOfTableWord nbits w)).1, (bytesOfOpcode (opcodeOfTableWord nbits w)).2] with
  | .ok (i, _) => some i
  | .error _ => none

end Sys2Proof
end

