-- ==== Sys2Proof/Config.lean ====
section
/-! DEFINITION. What an implementation fixes (spec/00_scope.md R6) and the values the spec leaves free. An `opaque`
constant has no body here: no proof can learn its value, so what is proved holds whatever it is. -/

namespace Sys2Proof

/-- `MEM_SIZE`: 4096 bytes of memory (R6). -/
def Config.memSize : Nat := 4096

/-- `ENTRY`: the address a program is copied to and starts at (R6). -/
def Config.entry : Nat := 0x200

/-- `ROM_MAX = MEM_SIZE - ENTRY` (R6). -/
def Config.romMax : Nat := Config.memSize - Config.entry

/-- The bytes of the font: 16 glyphs of 5 bytes (R6, R146). -/
def Config.fontSize : Nat := 80

/-- `FONT_BASE`, OPEN in the spec, with `FONT_BASE + 80 <= ENTRY` (R6, D7): a free value among the 433 that the
constraint allows. DESIGN CHOICE (log entry 3), safe. -/
opaque Config.fontBase : Fin 433

/-- `FONT_DATA`, the 80 glyph bytes; the spec makes them a parameter (R6, R146, D8): a free value.
DESIGN CHOICE (log entry 4), safe. -/
opaque Config.fontData : Fin 80 → Byte

/-- The default of the parameter `FONT_DATA` as R146 lists it (from general knowledge, the spec says): one row per hex
digit. Nothing in the machine takes it for granted; a claim that needs it names it as a premise (R146). -/
def Config.defaultFontData : List Byte :=
  [0xF0, 0x90, 0x90, 0x90, 0xF0] ++ [0x20, 0x60, 0x20, 0x20, 0x70] ++
  [0xF0, 0x10, 0xF0, 0x80, 0xF0] ++ [0xF0, 0x10, 0xF0, 0x10, 0xF0] ++
  [0x90, 0x90, 0xF0, 0x10, 0x10] ++ [0xF0, 0x80, 0xF0, 0x10, 0xF0] ++
  [0xF0, 0x80, 0xF0, 0x90, 0xF0] ++ [0xF0, 0x10, 0x20, 0x40, 0x40] ++
  [0xF0, 0x90, 0xF0, 0x90, 0xF0] ++ [0xF0, 0x90, 0xF0, 0x10, 0xF0] ++
  [0xF0, 0x90, 0xF0, 0x90, 0x90] ++ [0xE0, 0x90, 0xE0, 0x90, 0xE0] ++
  [0xF0, 0x80, 0x80, 0x80, 0xF0] ++ [0xE0, 0x90, 0x90, 0x90, 0xE0] ++
  [0xF0, 0x80, 0xF0, 0x80, 0xF0] ++ [0xF0, 0x80, 0xF0, 0x80, 0x80]

/-- `RND`: the byte that the k-th draw gives (R11, R133, D15): a free value for each k. DESIGN CHOICE
(log entry 5), safe. -/
opaque Config.randomByte : Nat → Byte

/-- The parameter `NEAR_MISS_POLICY` (R78, D9). -/
inductive NearMissPolicy where
  /-- a near-miss opcode is a no-op, the default -/
  | noop
  /-- the model refuses a cycle that fetches one -/
  | refuse
  deriving DecidableEq, Repr

/-- The setting the machine's `step` runs under: the spec's default (R78). The cycle is written for both settings.
DESIGN CHOICE (log entry 7). -/
def Config.nearMissPolicy : NearMissPolicy := .noop

end Sys2Proof
end

