-- ==== Sys2Proof/Machine/Memory.lean ====
section
/-! DEFINITION. The memory (spec/20_memory.md): 4096 bytes held as a list of (address, byte) pairs in one canonical
form. What an unlisted address reads as is its content after Init: the font, and 0 elsewhere (R40, R57). -/

namespace Sys2Proof.Machine

/-- `FONT_BASE` as an address (R6, R146): free, `FONT_BASE + 80 <= ENTRY`. -/
def fontBase : Nat := Config.fontBase.val

/-- Byte `k` of `FONT_DATA` (R146). -/
def fontByte (k : Nat) : Byte := if h : k < 80 then Config.fontData ⟨k, h⟩ else 0

/-- The content of address `a` after an Init that installs the font `data` at `base` (R40, R57, R230). The font lies
below ENTRY (R6), so an address from ENTRY up holds 0 wherever the font is. -/
def initByteOf (base : Nat) (data : Nat → Byte) (a : Nat) : Byte :=
  if a < Config.entry then
    if base ≤ a then
      if a < base + Config.fontSize then data (a - base) else 0
    else 0
  else 0

/-- What an address that the memory does not list reads as: its content after Init (R40). -/
def initByte (a : Nat) : Byte := initByteOf fontBase fontByte a

/-- The memory: the bytes that differ from their content after Init, addresses strictly rising. -/
abbrev Memory := List Host.Cell

/-- The byte at address `a` (R50). Ranges are checked where an instruction accesses memory (`memRead`, R9). -/
def Memory.read : Memory → Nat → Byte
  | [], a => initByte a
  | (b, w) :: m, a => if a = b then w else Memory.read m a

/-- The list with the pair (a, v) in its place, replacing any pair at `a`. -/
def Memory.insert : Memory → Nat → Byte → Memory
  | [], a, v => [(a, v)]
  | (b, w) :: m, a, v =>
    if a < b then (a, v) :: (b, w) :: m
    else if a = b then (a, v) :: m
    else (b, w) :: Memory.insert m a v

/-- The list without any pair at `a`. -/
def Memory.erase : Memory → Nat → Memory
  | [], _ => []
  | (b, w) :: m, a => if a = b then Memory.erase m a else (b, w) :: Memory.erase m a

/-- The memory with byte `v` at address `a`, in the canonical form: a byte equal to the content after Init is not
listed (R50). -/
def Memory.write (m : Memory) (a : Nat) (v : Byte) : Memory :=
  if v = initByte a then Memory.erase m a else Memory.insert m a v

/-- The list's addresses are above `lo` and strictly rising, they exist (R50), and no entry equals what an unlisted
address reads as. -/
def Memory.wfAbove : Option Nat → Memory → Bool
  | _, [] => true
  | lo, (a, v) :: m =>
    (match lo with | none => true | some l => decide (l < a)) &&
      decide (a < Config.memSize) && !decide (v = initByte a) && Memory.wfAbove (some a) m

/-- The canonical form: equal memories are equal lists. -/
def Memory.wf (m : Memory) : Bool := Memory.wfAbove none m

end Sys2Proof.Machine
end

