-- ==== Sys2Proof/Machine/State.lean ====
section
/-! DEFINITION. The state of the block (spec/10_state.md), the reasons a step can stop, and the state after reset. -/

namespace Sys2Proof.Machine

/-- The causes of an InvariantViolation (R201). -/
inductive Cause where
  /-- 2nnn with `sp = 16` -/
  | stackOverflow
  /-- 00EE with `sp = 0` -/
  | stackUnderflow
  /-- `SetPC(t)` with `t >= 4096` -/
  | pcRange
  /-- `MemRead` or `MemWrite` at an address of 4096 or more -/
  | memRange
  deriving DecidableEq, Repr

/-- The cause's code (R201). -/
def Cause.code : Cause → Nat
  | .stackOverflow => 1
  | .stackUnderflow => 2
  | .pcRange => 3
  | .memRange => 4

/-- An InvariantViolation: its cause and the info recorded with it (R201). -/
structure Violation where
  cause : Cause
  info : Nat
  deriving DecidableEq, Repr

/-- The engine's lifecycle (R38). -/
inductive Status where
  /-- after Init, no ROM loaded yet -/
  | created
  /-- a ROM was loaded: Cycle is admitted -/
  | ready
  /-- LoadError: the size of the rejected ROM -/
  | loadFailed (size : Nat)
  /-- an InvariantViolation was raised -/
  | halted (cause : Cause) (info : Nat)
  deriving DecidableEq, Repr

/-- The 16 key states, true for down (R32). -/
abbrev Keys := Vector Bool 16

/-- The 64 x 32 display (R31): row `py` is one of 32 words, and its bit `px` is the pixel `disp[px][py]`, 1 for lit. -/
abbrev Display := Vector (BitVec 64) 32

/-- An operation the host invokes between two cycles (R43). -/
inductive HostOp where
  /-- `Init()`, R230 -/
  | init
  /-- `LoadRom(bytes)`, R231 -/
  | loadRom (bytes : List Byte)
  /-- `Tick()`, R193 -/
  | tick
  /-- `SetKeypad(k)`, R183 -/
  | setKeypad (keys : Keys)
  deriving DecidableEq, Repr

/-- One atomic step of the block: a cycle of the engine or an operation of the host (R44). -/
inductive Event where
  | cycle
  | host (op : HostOp)
  deriving DecidableEq, Repr

/-- The state of the block, every part of R20 to R39, and two fields of the model's own at the end. -/
structure State where
  /-- the general registers V0 to VF (R20) -/
  v : Vector Byte 16
  /-- the index register I (R27) -/
  idx : Word
  /-- the program counter (R24) -/
  pc : Word
  /-- the number of return addresses on the stack, 0 to 16 (R29) -/
  sp : Fin 17
  /-- the return addresses (R28) -/
  stack : Vector Word 16
  /-- `delay_timer` (R30) -/
  dt : Byte
  /-- `sound_timer` (R30) -/
  st : Byte
  /-- the display (R31) -/
  disp : Display
  /-- the keypad snapshot (R32) -/
  key : Keys
  /-- the memory (R33) -/
  mem : Memory
  /-- the engine's lifecycle (R38) -/
  status : Status
  /-- MODEL'S OWN: how many RND draws were taken; the next one is `Config.randomByte draws` (R39; log entry 5) -/
  draws : Nat
  /-- MODEL'S OWN: the steps that come next, oldest first; when it is empty the next step is a cycle
  (R44; log entry 6) -/
  schedule : List Event
  deriving DecidableEq, Repr

/-- Why the machine stops with a fault. -/
inductive Fault where
  /-- Raised by a cycle in the status Halted: the engine has no step until Init (R70, R207, IMP15). Safe. -/
  | engineHalted (cause : Cause) (info : Nat)
  deriving DecidableEq, Repr

/-- Why the model gives no step. -/
inductive Refusal where
  /-- Raised by `exec` for an instruction without a meaning; no instruction is left so. Safe. -/
  | notModelled (mnemonic : String)
  /-- Raised by a cycle in the status Created: no ROM is loaded (R70, IMP16). Safe. -/
  | noRomLoaded
  /-- Raised by a cycle in the status LoadFailed: the machine must not start (R38, R70, IMP16). Safe. -/
  | romRejected (size : Nat)
  /-- Raised by LoadRom in any status but Created (R231, IMP17). Safe. -/
  | loadRomNotAdmitted
  /-- Raised by a cycle that fetches a near-miss opcode under NEAR_MISS_POLICY = refuse (R78), never under the
  setting `step` runs with. Safe. -/
  | nearMissOpcode (op : Word)
  /-- Raised by the layer of Machine/ResetPolicy.lean, never by `step`: the instruction reads a cell nothing has
  written since Init, under RESET_POLICY = refuse_unwritten_read (R40, IMP4). Safe. -/
  | unwrittenRead
  deriving DecidableEq, Repr

/-- The outcome of a step of this machine. -/
abbrev Out := Host.Outcome State Fault Refusal

/-- The state Init leaves (R40, R230), with no ROM loaded: V, I, DT and ST are 0, the setting `zero` of the parameter
RESET_POLICY (DESIGN CHOICE, log entry 1, unsafe). -/
def State.reset : State where
  v := Vector.replicate 16 0
  idx := 0
  pc := 0x200
  sp := 0
  stack := Vector.replicate 16 0
  dt := 0
  st := 0
  disp := Vector.replicate 32 0
  key := Vector.replicate 16 false
  mem := []
  status := .created
  draws := 0
  schedule := []

end Sys2Proof.Machine
end

