-- ==== Sys2Proof/Machine/Ops.lean ====
section
/-! DEFINITION. The named operations over the state: registers, memory, pc, display, and taking an InvariantViolation
(spec/00_scope.md R9, R10, R11; spec/60_exceptions.md R205). -/

namespace Sys2Proof.Machine

/-! ### Registers -/

/-- `V[r]` (R8). -/
def State.getV (s : State) (r : Reg) : Byte := s.v[r.val]

/-- `V[r] <- b` (R8). -/
def State.setV (s : State) (r : Reg) (b : Byte) : State := { s with v := s.v.set r.val b }

/-- `let flag, then result`: VF gets the flag and after it V[x] gets the result, so that with x = F the result stays
(R22, R120). -/
def State.setFlagged (s : State) (x : Reg) (flag result : Byte) : State := (s.setV Reg.vf flag).setV x result

/-- Write a list of bytes to `V[r], V[r+1], ...`; bytes past V[15] are dropped. -/
def setRegs (v : Vector Byte 16) (r : Nat) : List Byte → Vector Byte 16
  | [] => v
  | b :: bs => setRegs (v.setIfInBounds r b) (r + 1) bs

/-- `V[0..x]`, in order (R144). -/
def State.regsUpTo (s : State) (x : Reg) : List Byte := s.v.toList.take (x.val + 1)

/-! ### Raising and committing -/

/-- The halted state of a cycle at address `a` that raised `e`: the state it started from, with `status` Halted
(R205, R206). -/
def State.haltAt (s : State) (a : Word) (e : Violation) : State :=
  { s with pc := a, status := .halted e.cause e.info }

/-- The address of the instruction that runs: pc holds it plus 2 (R25). -/
def State.instrAddr (s : State) : Word := s.pc - 2

/-- TAKING AN EXCEPTION. `s` is the state after the fetch, whose one write is the advance of pc. The cycle commits
nothing: pc returns to the address of the instruction, and the engine halts with cause and info (R11, R205, R206). -/
def takeViolation (e : Violation) (s : State) : Out := .next (s.haltAt s.instrAddr e)

/-- The end of a handler that started in `s`: its writes, or, where it raised, the exception and none of its writes
(R11). -/
def commit (s : State) : Except Violation State → Out
  | .ok t => .next t
  | .error e => takeViolation e s

/-! ### Memory and pc primitives -/

/-- `MemRead(a, 1)` (R9). -/
def memRead (m : Memory) (a : Nat) : Except Violation Byte :=
  if a < Config.memSize then .ok (m.read a) else .error ⟨.memRange, a⟩

/-- `MemWrite(a, 1, v)` (R9). -/
def memWrite (m : Memory) (a : Nat) (v : Byte) : Except Violation Memory :=
  if a < Config.memSize then .ok (m.write a v) else .error ⟨.memRange, a⟩

/-- `MemRead` at `a, a+1, ..., a+n-1`, in that order (R55, R60). -/
def loadBytes (m : Memory) (a : Nat) : Nat → Except Violation (List Byte)
  | 0 => .ok []
  | n + 1 => do
    let b ← memRead m a
    let bs ← loadBytes m (a + 1) n
    .ok (b :: bs)

/-- `MemWrite` of a list of bytes at `a, a+1, ...`, in that order (R55, R60). -/
def storeBytes (m : Memory) (a : Nat) : List Byte → Except Violation Memory
  | [] => .ok m
  | b :: bs => do
    let m' ← memWrite m a b
    storeBytes m' (a + 1) bs

/-- `SetPC(t)` (R10, R24). -/
def setPC (t : Nat) (s : State) : Except Violation State :=
  if t < Config.memSize then .ok { s with pc := BitVec.ofNat 16 t } else .error ⟨.pcRange, t⟩

/-! ### The stack -/

/-- `stack[k]` (R28). -/
def State.slot (s : State) (k : Fin 16) : Word := s.stack[k.val]

/-- `stack[sp] <- a; sp <- sp + 1`; on a full stack it raises STACK_OVERFLOW with the address of the instruction
(R29, R100). -/
def pushAddr (a : Word) (s : State) : Except Violation State :=
  if h : s.sp.val < 16 then
    .ok { s with stack := s.stack.set s.sp.val a, sp := ⟨s.sp.val + 1, by omega⟩ }
  else .error ⟨.stackOverflow, s.instrAddr.toNat⟩

/-- `sp <- sp - 1`, with the address `stack[sp]` it uncovers; on an empty stack it raises STACK_UNDERFLOW with the address
of the instruction. The slot keeps its stale value (R29, R102). -/
def popAddr (s : State) : Except Violation (Word × State) :=
  if h : s.sp.val = 0 then .error ⟨.stackUnderflow, s.instrAddr.toNat⟩
  else .ok (s.slot ⟨s.sp.val - 1, by omega⟩, { s with sp := ⟨s.sp.val - 1, by omega⟩ })

/-! ### The display -/

/-- `disp[px][py]`; a position off the display is unlit. -/
def pixel (d : Display) (px py : Nat) : Bool :=
  if h : py < 32 then d[py].getLsbD px else false

/-- `disp[px][py] <- disp[px][py] ^ 1`, for a position on the display. -/
def flipPixel (d : Display) (px py : Nat) : Display :=
  if h : py < 32 then d.set py (d[py] ^^^ BitVec.twoPow 64 px) else d

/-- The display with every pixel 0. -/
def blankDisplay : Display := Vector.replicate 32 0

/-! ### The keypad -/

/-- `key[k]` (R32). -/
def State.keyDown (s : State) (k : Fin 16) : Bool := s.key[k.val]

/-- `lowest(k => key[k])`: the least key that is down, or none (R11, R182). -/
def lowestKeyDown (s : State) : Option (Fin 16) :=
  (List.finRange 16).find? fun k => s.keyDown k

/-! ### The random draw -/

/-- `RND()`: a fresh free byte (R11), and the state with the draw taken. -/
def State.draw (s : State) : Byte × State :=
  (Config.randomByte s.draws, { s with draws := s.draws + 1 })

end Sys2Proof.Machine
end

