-- ==== Sys2Proof/Machine/Flags.lean ====
section
/-! DEFINITION. The flags that VF gets (spec/10_state.md R21; spec/41_alu.md R128 to R134; spec/43_display.md R162). -/

namespace Sys2Proof.Machine

/-- A condition as the byte VF holds: `(c) ? 1 : 0`. -/
def flagByte (c : Bool) : Byte := if c then 1 else 0

/-- Carry of 8xy4: the exact sum is above 255 (R128). -/
def carryFlag (a b : Byte) : Byte := flagByte (decide (a.toNat + b.toNat > 255))

/-- The flag of 8xy5 and 8xy7: strictly greater (R129, R131). -/
def greaterFlag (a b : Byte) : Byte := flagByte (decide (a.toNat > b.toNat))

/-- The bit 8xy6 shifts out: bit 0 (R130). -/
def shiftedOutRight (a : Byte) : Byte := a &&& 1

/-- The bit 8xyE shifts out: bit 7 (R132). -/
def shiftedOutLeft (a : Byte) : Byte := (a >>> 7) &&& 1

/-- The collision flag of Dxyn (R162). -/
def collisionFlag (hit : Bool) : Byte := flagByte hit

end Sys2Proof.Machine
end

