-- ==== Sys2Proof/Machine/Operands.lean ====
section
/-! DEFINITION. The operand forms (spec/30_encoding.md R76, spec/20_memory.md R66). -/

namespace Sys2Proof.Machine

/-- `zext_16(nnn)` as the number `SetPC` takes (R76). -/
def targetOf (nnn : Addr) : Nat := nnn.toNat

/-- `zext_16(nnn)` as a value of `I` (R76, R140). -/
def indexOf (nnn : Addr) : Word := nnn.zeroExtend 16

/-- The base of an index-addressed access: `zext(I)`, to which an offset is added exactly (R66, R147). -/
def State.indexBase (s : State) : Nat := s.idx.toNat

/-- The low nibble of `V[x]`: a key or a glyph number (R142, R180). -/
def State.lowNibble (s : State) (x : Reg) : Fin 16 := ⟨(s.getV x).toNat % 16, Nat.mod_lt _ (by decide)⟩

/-- The column a sprite starts at: `V[x] mod 64` (R161, R163). -/
def State.originX (s : State) (x : Reg) : Nat := (s.getV x).toNat % 64

/-- The row a sprite starts at: `V[y] mod 32` (R161, R163). -/
def State.originY (s : State) (y : Reg) : Nat := (s.getV y).toNat % 32

/-- The address of glyph `d` (R142, R146). -/
def glyphAddr (d : Nat) : Word := BitVec.ofNat 16 (fontBase + d * 5)

/-- The hundreds, tens and ones of a byte (R143). -/
def bcdDigits (b : Byte) : List Byte :=
  [BitVec.ofNat 8 (b.toNat / 100), BitVec.ofNat 8 (b.toNat / 10 % 10), BitVec.ofNat 8 (b.toNat % 10)]

end Sys2Proof.Machine
end

