-- ==== Sys2Proof/Machine/Alu.lean ====
section
/-! DEFINITION. Register loads, arithmetic, logic and random (spec/41_alu.md). Operands are sampled first, then VF is
written, then V[x] (R22, R120). -/

namespace Sys2Proof.Machine

/-- 6xkk (R121). -/
def execLdImm (x : Reg) (kk : Byte) (s : State) : Out := .next (s.setV x kk)

/-- 7xkk (R122): modulo 256, no flag. -/
def execAddImm (x : Reg) (kk : Byte) (s : State) : Out := .next (s.setV x (s.getV x + kk))

/-- 8xy0 (R123). -/
def execLdReg (x y : Reg) (s : State) : Out := .next (s.setV x (s.getV y))

/-- 8xy1 (R124). -/
def execOrReg (x y : Reg) (s : State) : Out := .next (s.setV x (s.getV x ||| s.getV y))

/-- 8xy2 (R125). -/
def execAndReg (x y : Reg) (s : State) : Out := .next (s.setV x (s.getV x &&& s.getV y))

/-- 8xy3 (R126). -/
def execXorReg (x y : Reg) (s : State) : Out := .next (s.setV x (s.getV x ^^^ s.getV y))

/-- 8xy4 (R128): VF is the carry. -/
def execAddReg (x y : Reg) (s : State) : Out :=
  .next (s.setFlagged x (carryFlag (s.getV x) (s.getV y)) (s.getV x + s.getV y))

/-- 8xy5 (R129): VF is `V[x] > V[y]`. -/
def execSub (x y : Reg) (s : State) : Out :=
  .next (s.setFlagged x (greaterFlag (s.getV x) (s.getV y)) (s.getV x - s.getV y))

/-- 8xy6 (R130): y is ignored. -/
def execShr (x _y : Reg) (s : State) : Out :=
  .next (s.setFlagged x (shiftedOutRight (s.getV x)) (s.getV x >>> 1))

/-- 8xy7 (R131): VF is `V[y] > V[x]`. -/
def execSubn (x y : Reg) (s : State) : Out :=
  .next (s.setFlagged x (greaterFlag (s.getV y) (s.getV x)) (s.getV y - s.getV x))

/-- 8xyE (R132): y is ignored. -/
def execShl (x _y : Reg) (s : State) : Out :=
  .next (s.setFlagged x (shiftedOutLeft (s.getV x)) (s.getV x <<< 1))

/-- Cxkk (R133): a fresh draw, ANDed with kk. -/
def execRnd (x : Reg) (kk : Byte) (s : State) : Out := .next (s.draw.2.setV x (s.draw.1 &&& kk))

end Sys2Proof.Machine
end

