-- ==== Sys2Proof/Machine/ControlFlow.lean ====
section
/-! DEFINITION. Calls, jumps, returns and skips (spec/40_control_flow.md). Every meaning takes the state after the
fetch: pc is the address of the instruction plus 2 (R25). -/

namespace Sys2Proof.Machine

/-- `if c: SetPC(pc + 2)`: the shared part of the six skips (R104 to R107, R180, R181). -/
def skipIf (c : Bool) (s : State) : Out :=
  commit s (if c then setPC (s.pc.toNat + 2) s else .ok s)

/-- 2nnn (R100). -/
def execCall (nnn : Addr) (s : State) : Out :=
  commit s (do
    let t ← pushAddr s.pc s
    setPC (targetOf nnn) t)

/-- 1nnn (R101). -/
def execJp (nnn : Addr) (s : State) : Out := commit s (setPC (targetOf nnn) s)

/-- 00EE (R102). -/
def execRet (s : State) : Out :=
  commit s (do
    let (a, t) ← popAddr s
    setPC a.toNat t)

/-- Bnnn (R103): the sum is exact. -/
def execJpV0 (nnn : Addr) (s : State) : Out := commit s (setPC (targetOf nnn + (s.getV 0).toNat) s)

/-- 3xkk (R104). -/
def execSeImm (x : Reg) (kk : Byte) (s : State) : Out := skipIf (decide (s.getV x = kk)) s

/-- 4xkk (R105). -/
def execSneImm (x : Reg) (kk : Byte) (s : State) : Out := skipIf (decide (s.getV x ≠ kk)) s

/-- 5xy0 (R106). -/
def execSeReg (x y : Reg) (s : State) : Out := skipIf (decide (s.getV x = s.getV y)) s

/-- 9xy0 (R107). -/
def execSneReg (x y : Reg) (s : State) : Out := skipIf (decide (s.getV x ≠ s.getV y)) s

end Sys2Proof.Machine
end

