-- ==== Sys2Proof/Machine/Drawing.lean ====
section
/-! DEFINITION. The display and the sprite blitter (spec/43_display.md). -/

namespace Sys2Proof.Machine

/-- A draw in progress: the display, and whether a lit pixel was turned off so far (R162). -/
structure Canvas where
  disp : Display
  hit : Bool
  deriving DecidableEq, Repr

/-- The pixel a sprite byte has in column `c`: `(b >> (7 - c)) & 1`, bit 7 leftmost (R165). -/
def spriteBit (b : Byte) (c : Nat) : Bool := b.getLsbD (7 - c)

/-- Toggle one pixel, noting a collision; a position past the right or bottom edge is dropped (R161, R163). -/
def drawPixel (px py : Nat) (k : Canvas) : Canvas :=
  if px < 64 ∧ py < 32 then ⟨flipPixel k.disp px py, k.hit || pixel k.disp px py⟩ else k

/-- Draw columns `c, c+1, ..., c+fuel-1` of a sprite row (R161). -/
def drawCols (b : Byte) (x0 py : Nat) : Nat → Nat → Canvas → Canvas
  | _, 0, k => k
  | c, fuel + 1, k =>
    drawCols b x0 py (c + 1) fuel (if spriteBit b c then drawPixel (x0 + c) py k else k)

/-- Draw a sprite's rows at `py, py+1, ...` (R161, R165). -/
def drawRows (x0 : Nat) : Nat → List Byte → Canvas → Canvas
  | _, [], k => k
  | py, b :: bs, k => drawRows x0 (py + 1) bs (drawCols b x0 py 0 8 k)

/-- 00E0 (R160). -/
def execCls (s : State) : Out := .next { s with disp := blankDisplay }

/-- Dxyn (R161 to R165): the origin and every row are read before VF is written; a row outside memory raises even where
it would be clipped; with n = 0 nothing is read or drawn and VF becomes 0. -/
def execDrw (x y : Reg) (n : Nat) (s : State) : Out :=
  commit s (do
    let rows ← loadBytes s.mem s.indexBase n
    let k := drawRows (s.originX x) (s.originY y) rows ⟨s.disp, false⟩
    .ok { s.setV Reg.vf (collisionFlag k.hit) with disp := k.disp })

end Sys2Proof.Machine
end

