-- ==== Sys2Proof/Machine/IndexMemory.lean ====
section
/-! DEFINITION. The index register and the memory transfers (spec/42_index_memory.md). -/

namespace Sys2Proof.Machine

/-- Annn (R140). -/
def execLdI (nnn : Addr) (s : State) : Out := .next { s with idx := indexOf nnn }

/-- Fx1E (R141): modulo 65536, VF unchanged. -/
def execAddI (x : Reg) (s : State) : Out := .next { s with idx := s.idx + (s.getV x).zeroExtend 16 }

/-- Fx29 (R142). -/
def execLdF (x : Reg) (s : State) : Out := .next { s with idx := glyphAddr (s.lowNibble x).val }

/-- Fx33 (R143): I and V[x] are unchanged. -/
def execLdB (x : Reg) (s : State) : Out :=
  commit s (do
    let m ← storeBytes s.mem s.indexBase (bcdDigits (s.getV x))
    .ok { s with mem := m })

/-- Fx55 (R144): I is unchanged. -/
def execStRegs (x : Reg) (s : State) : Out :=
  commit s (do
    let m ← storeBytes s.mem s.indexBase (s.regsUpTo x)
    .ok { s with mem := m })

/-- Fx65 (R145): I is unchanged. -/
def execLdRegs (x : Reg) (s : State) : Out :=
  commit s (do
    let bs ← loadBytes s.mem s.indexBase (x.val + 1)
    .ok { s with v := setRegs s.v 0 bs })

end Sys2Proof.Machine
end

