-- ==== Sys2Proof/Machine/Keypad.lean ====
section
/-! DEFINITION. The keypad instructions (spec/44_keypad.md): they read the level in the current snapshot (R185). -/

namespace Sys2Proof.Machine

/-- Ex9E (R180). -/
def execSkp (x : Reg) (s : State) : Out := skipIf (s.keyDown (s.lowNibble x)) s

/-- ExA1 (R181). -/
def execSknp (x : Reg) (s : State) : Out := skipIf (!s.keyDown (s.lowNibble x)) s

/-- Fx0A (R182): with no key down pc goes back to this instruction and nothing else changes; else V[x] is the lowest
key down. -/
def execLdK (x : Reg) (s : State) : Out :=
  match lowestKeyDown s with
  | none => .next { s with pc := s.instrAddr }
  | some k => .next (s.setV x (BitVec.ofNat 8 k.val))

end Sys2Proof.Machine
end

