-- ==== Sys2Proof/Machine/Timers.lean ====
section
/-! DEFINITION. The timer instructions and the tick (spec/45_timers.md). -/

namespace Sys2Proof.Machine

/-- Fx07 (R190). -/
def execLdVxDt (x : Reg) (s : State) : Out := .next (s.setV x s.dt)

/-- Fx15 (R191). -/
def execLdDt (x : Reg) (s : State) : Out := .next { s with dt := s.getV x }

/-- Fx18 (R192). -/
def execLdSt (x : Reg) (s : State) : Out := .next { s with st := s.getV x }

/-- One counter's decrement: never below 0 (R193). -/
def countDown (b : Byte) : Byte := if b = 0 then 0 else b - 1

/-- `Tick()` (R193): both counters in one step, in every status (R194). -/
def tick (s : State) : State := { s with dt := countDown s.dt, st := countDown s.st }

end Sys2Proof.Machine
end

