-- ==== Sys2Proof/Machine/HostOps.lean ====
section
/-! DEFINITION. The host's operations (spec/10_state.md R43): Init, LoadRom, SetKeypad; Tick stands in Timers.lean. -/

namespace Sys2Proof.Machine

/-- `Init()` (R230): the whole state of the block is made anew, in any status. It is the only way out of Halted (R207).
What the host schedules next and the draws already taken are no state of the block and go on (log entry 10). -/
def init (s : State) : State := { State.reset with draws := s.draws, schedule := s.schedule }

/-- Copy bytes to `a, a+1, ...` (R231). -/
def copyBytes (m : Memory) (a : Nat) : List Byte → Memory
  | [] => m
  | b :: bs => copyBytes (m.write a b) (a + 1) bs

/-- `LoadRom(bytes)` (R231): admitted in Created alone; a ROM longer than ROM_MAX is a LoadError that leaves memory as
it was. -/
def loadRom (bytes : List Byte) (s : State) : Out :=
  match s.status with
  | .created =>
    if bytes.length > Config.romMax then .next { s with status := .loadFailed bytes.length }
    else .next { s with mem := copyBytes s.mem Config.entry bytes, status := .ready }
  | .ready | .loadFailed _ | .halted _ _ => .refused .loadRomNotAdmitted

/-- `SetKeypad(k)` (R183): all 16 keys at once. -/
def setKeypad (keys : Keys) (s : State) : State := { s with key := keys }

/-- A host operation as a step. -/
def hostStep (op : HostOp) (s : State) : Out :=
  match op with
  | .init => .next (init s)
  | .loadRom bytes => loadRom bytes s
  | .tick => .next (tick s)
  | .setKeypad keys => .next (setKeypad keys s)

end Sys2Proof.Machine
end

