-- ==== Sys2Proof/Machine/Cycle.lean ====
section
/-! DEFINITION. The engine's cycle (spec/30_encoding.md R70) and one event of the block (spec/10_state.md R44). -/

namespace Sys2Proof.Machine

/-- Read the opcode at pc, most significant byte first, and advance pc past it (R52, R70). -/
def fetch (s : State) : Except Violation (Word × State) := do
  let hi ← memRead s.mem s.pc.toNat
  let lo ← memRead s.mem (s.pc.toNat + 1)
  let t ← setPC (s.pc.toNat + 2) s
  .ok (opcodeOfBytes hi lo, t)

/-- Decode and run an opcode in the state after its fetch. A word that is no instruction is a no-op (R77), but for a
near miss under NEAR_MISS_POLICY = refuse (R78). -/
def execute (p : NearMissPolicy) (op : Word) (s : State) : Out :=
  match decodeWord op with
  | .ok i => exec i s
  | .error (.nearMiss w) =>
    match p with
    | .noop => .next s
    | .refuse => .refused (.nearMissOpcode w)
  | .error (.unknownOpcode _) => .next s
  | .error .truncated => .next s

/-- `Cycle()` (R70): it has a step only in Ready. A fault of the fetch leaves everything as it was before (R205). -/
def cycle (p : NearMissPolicy) (s : State) : Out :=
  match s.status with
  | .ready =>
    match fetch s with
    | .ok (op, t) => execute p op t
    | .error e => .next (s.haltAt s.pc e)
  | .created => .refused .noRomLoaded
  | .loadFailed size => .refused (.romRejected size)
  | .halted cause info => .fault (.engineHalted cause info)

/-- One event of the block (R44). -/
def runEvent (p : NearMissPolicy) (e : Event) (s : State) : Out :=
  match e with
  | .cycle => cycle p s
  | .host op => hostStep op s

/-- The next event of the schedule and the state without it; an empty schedule means a cycle (log entry 6). -/
def nextEvent (s : State) : Event × State :=
  match s.schedule with
  | [] => (.cycle, s)
  | e :: rest => (e, { s with schedule := rest })

/-- One step of the block under a setting of NEAR_MISS_POLICY. -/
def stepUnder (p : NearMissPolicy) (s : State) : Out := runEvent p (nextEvent s).1 (nextEvent s).2

/-- Put a byte in memory where the address exists. -/
def pokeByte (m : Memory) (a : Nat) (b : Byte) : Memory := if a < Config.memSize then m.write a b else m

/-- The state whose next step fetches and runs the given word: its two bytes lie at pc, the engine is Ready as after a
LoadRom, and no host operation comes first (log entry 8). -/
def placeWord (s : State) (nbits w : Nat) : State :=
  { s with
    mem := pokeByte (pokeByte s.mem s.pc.toNat (bytesOfOpcode (opcodeOfTableWord nbits w)).1) (s.pc.toNat + 1)
      (bytesOfOpcode (opcodeOfTableWord nbits w)).2
    status := .ready
    schedule := [] }

end Sys2Proof.Machine
end

