-- ==== Sys2Proof/Machine/Step.lean ====
section
/-! DEFINITION. One step of the block, under the spec's default NEAR_MISS_POLICY (R78). -/

namespace Sys2Proof.Machine

/-- One step: the next event of the schedule, which is a cycle of the engine when nothing is scheduled (R44, R70). -/
def step (s : State) : Host.Outcome State Fault Refusal := stepUnder Config.nearMissPolicy s

/-- `s` with the given word of the opcode table stored where `step` fetches its next instruction, and the engine Ready
(log entry 8). -/
def State.withFetchWord (s : State) (nbits w : Nat) : State := placeWord s nbits w

end Sys2Proof.Machine
end

