-- ==== Sys2Proof/Machine/HostView.lean ====
section
/-! DEFINITION. The read accessors (spec/10_state.md R43, R45): what the host observes, without changing the state. -/

namespace Sys2Proof.Machine

/-- What the host can read: V, I, pc, sp, the stack, DT, ST, memory, the display and the status (R45). -/
structure HostView where
  v : List Byte
  idx : Word
  pc : Word
  sp : Nat
  stack : List Word
  dt : Byte
  st : Byte
  /-- the bytes of memory, address 0 first -/
  mem : List Byte
  /-- the 2048 pixels in row-major order -/
  disp : List Bool
  status : Status
  deriving DecidableEq, Repr

/-- Element `k` of the flat display: pixel `(k mod 64, k / 64)`, so that pixel (px, py) is element `py * 64 + px`
(R166). -/
def flatPixel (d : Display) (k : Nat) : Bool := pixel d (k % 64) (k / 64)

/-- The display as the render sink reads it: row-major (R166). -/
def flatDisplay (d : Display) : List Bool := (List.range 2048).map (flatPixel d)

/-- The byte at `a`, where the address exists (R50). -/
def State.readMem (s : State) (a : Nat) : Option Byte := if a < Config.memSize then some (s.mem.read a) else none

/-- `Read*()`: all the accessors at once (R43). -/
def State.view (s : State) : HostView where
  v := s.v.toList
  idx := s.idx
  pc := s.pc
  sp := s.sp.val
  stack := s.stack.toList
  dt := s.dt
  st := s.st
  mem := (List.range Config.memSize).map s.mem.read
  disp := flatDisplay s.disp
  status := s.status

end Sys2Proof.Machine
end

