-- ==== Sys2Proof/Machine/ResetPolicy.lean ====
section
/-! DEFINITION. The other setting of the parameter RESET_POLICY, `refuse_unwritten_read` (spec/10_state.md R40), as a
layer over the machine: beside the state it keeps which cells among V, I, DT and ST a step has written since Init, and
it refuses a cycle whose instruction reads one that none has (log entry 14). `step` itself runs under `zero`. -/

namespace Sys2Proof.Machine

/-- A cell that holds no value after Init under `refuse_unwritten_read` (R40). -/
inductive RegCell where
  | v (r : Reg)
  | idx
  | dt
  | st
  deriving DecidableEq, Repr

/-- What a cell holds. -/
def cellValue (c : RegCell) (s : State) : Nat :=
  match c with
  | .v r => (s.getV r).toNat
  | .idx => s.idx.toNat
  | .dt => s.dt.toNat
  | .st => s.st.toNat

/-- The cells V[0], ..., V[x]. -/
def cellsUpTo (x : Reg) : List RegCell := ((List.finRange 16).filter fun r => decide (r.val ≤ x.val)).map .v

/-- The cells an instruction samples as operands: the column "reads" of R23. Dxyn reads I only when n is 1 or more
(R40). -/
def cellsRead : Instr → List RegCell
  | .cls | .ret | .jp _ | .call _ | .ldImm _ _ | .ldI _ | .rnd _ _ | .ldK _ => []
  | .seImm x _ | .sneImm x _ | .addImm x _ | .shr x _ | .shl x _ | .skp x | .sknp x | .ldDt x | .ldSt x | .ldF x =>
    [.v x]
  | .ldReg _ y => [.v y]
  | .seReg x y | .sneReg x y | .orReg x y | .andReg x y | .xorReg x y | .addReg x y | .sub x y | .subn x y =>
    [.v x, .v y]
  | .jpV0 _ => [.v 0]
  | .drw x y n => if n = 0 then [.v x, .v y] else [.v x, .v y, .idx]
  | .ldVxDt _ => [.dt]
  | .addI x | .ldB x => [.v x, .idx]
  | .stRegs x => .idx :: cellsUpTo x
  | .ldRegs _ => [.idx]

/-- The cells an instruction writes when it runs to its end: the column "writes" of R23. Fx0A writes one only when a
key is down (R182). -/
def cellsWritten (i : Instr) (s : State) : List RegCell :=
  match i with
  | .cls | .ret | .jp _ | .call _ | .seImm _ _ | .sneImm _ _ | .seReg _ _ | .sneReg _ _ | .jpV0 _ | .skp _ | .sknp _
  | .ldB _ | .stRegs _ => []
  | .ldImm x _ | .addImm x _ | .ldReg x _ | .orReg x _ | .andReg x _ | .xorReg x _ | .rnd x _ | .ldVxDt x => [.v x]
  | .addReg x _ | .sub x _ | .shr x _ | .subn x _ | .shl x _ => [.v Reg.vf, .v x]
  | .ldI _ | .addI _ | .ldF _ => [.idx]
  | .drw _ _ _ => [.v Reg.vf]
  | .ldK x => if (lowestKeyDown s).isSome then [.v x] else []
  | .ldDt _ => [.dt]
  | .ldSt _ => [.st]
  | .ldRegs x => cellsUpTo x

/-- Which cells have been written since Init. -/
structure Written where
  v : Vector Bool 16
  idx : Bool
  dt : Bool
  st : Bool
  deriving DecidableEq, Repr

/-- After Init no cell holds a value (R40). -/
def Written.none : Written := ⟨Vector.replicate 16 false, false, false, false⟩

/-- The cell holds a value. -/
def Written.has (w : Written) : RegCell → Bool
  | .v r => w.v[r.val]
  | .idx => w.idx
  | .dt => w.dt
  | .st => w.st

/-- Any write gives the cell a value (R40). -/
def Written.mark (w : Written) : RegCell → Written
  | .v r => { w with v := w.v.set r.val true }
  | .idx => { w with idx := true }
  | .dt => { w with dt := true }
  | .st => { w with st := true }

/-- A state of the block and which of its cells hold a value. -/
structure Tracked where
  state : State
  written : Written
  deriving DecidableEq, Repr

/-- What the host's read accessors report for a cell: its value, or that it holds none (R40, R45). -/
def Tracked.readCell (m : Tracked) (c : RegCell) : Option Nat :=
  if m.written.has c then some (cellValue c m.state) else none

/-- After Init. -/
def Tracked.reset : Tracked := ⟨State.reset, Written.none⟩

/-- An outcome of the machine beside the cells that hold a value after it. -/
def withWritten (f : State → Written) : Out → Host.Outcome Tracked Fault Refusal
  | .next t => .next ⟨t, f t⟩
  | .fault r => .fault r
  | .refused r => .refused r

/-- An instruction's run: refused where it reads a cell without a value; a cycle that raises writes none (R205). -/
def trackedExec (i : Instr) (m : Tracked) : Host.Outcome Tracked Fault Refusal :=
  if (cellsRead i).all m.written.has then
    withWritten
      (fun t => if t.status = .ready then (cellsWritten i m.state).foldl Written.mark m.written else m.written)
      (exec i m.state)
  else .refused .unwrittenRead

/-- A cycle under `refuse_unwritten_read` (R40, R70). -/
def trackedCycle (p : NearMissPolicy) (m : Tracked) : Host.Outcome Tracked Fault Refusal :=
  match m.state.status, fetch m.state with
  | .ready, .ok (op, t) =>
    match decodeWord op with
    | .ok i => trackedExec i ⟨t, m.written⟩
    | .error _ => withWritten (fun _ => m.written) (execute p op t)
  | _, _ => withWritten (fun _ => m.written) (cycle p m.state)

/-- One step under `refuse_unwritten_read` and a setting of NEAR_MISS_POLICY: Init takes every cell's value away, and a
Tick gives none (R6, R40, R193). -/
def trackedStepUnder (p : NearMissPolicy) (m : Tracked) : Host.Outcome Tracked Fault Refusal :=
  match (nextEvent m.state).1 with
  | .cycle => trackedCycle p ⟨(nextEvent m.state).2, m.written⟩
  | .host .init => withWritten (fun _ => Written.none) (hostStep .init (nextEvent m.state).2)
  | .host op => withWritten (fun _ => m.written) (hostStep op (nextEvent m.state).2)

/-- One step under `refuse_unwritten_read` and the spec's default NEAR_MISS_POLICY (R78). -/
def trackedStep (m : Tracked) : Host.Outcome Tracked Fault Refusal := trackedStepUnder Config.nearMissPolicy m

end Sys2Proof.Machine
end

