-- ==== Sys2Proof/Safety.lean ====
section
/-! DEFINITION. The terms claims are stated in: the invariants of the block (spec/10_state.md R41), the observation points
of a run (spec/70_reset_and_hazards.md R239), and what a step leaves unchanged. -/

namespace Sys2Proof.Machine

/-! ### Invariants -/

/-- The invariants of R41, with the canonical form of memory: pc below 4096, every pushed slot a pc taken after a fetch.
`sp <= 16` and the ranges of DT and ST hold by their types. -/
structure Inv (s : State) : Prop where
  pc_lt : s.pc.toNat < 4096
  slots : ∀ k : Fin 16, k.val < s.sp.val → 2 ≤ (s.slot k).toNat ∧ (s.slot k).toNat < 4096
  mem_wf : s.mem.wf = true

/-- What a Halted or LoadFailed status records (R201, R231): a stack fault the address of its instruction, which pc still
holds, with the stack full or empty; a range fault a value of 4096 or more; a LoadError a size above ROM_MAX. -/
def StatusRecord (s : State) : Prop :=
  match s.status with
  | .created => True
  | .ready => True
  | .loadFailed size => size > 3584
  | .halted .stackOverflow info => info = s.pc.toNat ∧ s.sp.val = 16
  | .halted .stackUnderflow info => info = s.pc.toNat ∧ s.sp.val = 0
  | .halted .pcRange info => info ≥ 4096
  | .halted .memRange info => info ≥ 4096

/-- The font is in memory as Init installs it (R146). -/
def FontInPlace (m : Memory) : Prop := ∀ k, k < 80 → m.read (fontBase + k) = fontByte k

/-! ### Observation points (R239) -/

/-- The opcode in memory at address `a` (R52). -/
def wordAt (s : State) (a : Nat) : Word := opcodeOfBytes (s.mem.read a) (s.mem.read (a + 1))

/-- Observation point 1: an InvariantViolation ended the run. -/
def Faulted (s : State) : Prop := ∃ cause info, s.status = .halted cause info

/-- Observation point 2: Ready, at a jump to itself that the fetch can read and pass (log entry 11). -/
def Spinning (s : State) : Prop :=
  s.status = .ready ∧ s.pc.toNat + 2 < 4096 ∧ wordAt s s.pc.toNat = encodeWord (.jp (s.pc.extractLsb' 0 12))

/-- A step that may stand between two cycles of a run, or a cycle: Tick and SetKeypad, but neither Init nor LoadRom. -/
def isCycleOrInput : Event → Bool
  | .cycle | .host .tick | .host (.setKeypad _) => true
  | .host .init | .host (.loadRom _) => false

/-- The steps of a run of exactly `k` cycles, from the first cycle to the `k`-th, with the Tick and SetKeypad steps
between them; of no cycle, no step. -/
structure CyclePlan (k : Nat) (plan : List Event) : Prop where
  cycles : plan.count .cycle = k
  inputs : plan.all isCycleOrInput = true
  first : plan = [] ∨ plan.head? = some .cycle
  last : plan = [] ∨ plan.getLast? = some .cycle

/-- Observation point 3: `t` is the state after exactly `k` Cycle steps from `s`, with the host steps that `plan` puts
between them. The plan stands in place of the schedule. -/
def AfterCycles (k : Nat) (plan : List Event) (s t : State) : Prop :=
  CyclePlan k plan ∧ core.run plan.length { s with schedule := plan } = .next t

/-- The next step is a cycle that reads its whole opcode below 4096 and passes it: Ready, nothing scheduled, and
`pc + 2 < 4096` (R70). -/
structure Fetchable (s : State) : Prop where
  ready : s.status = .ready
  nothing_scheduled : s.schedule = []
  pc_lt : s.pc.toNat + 2 < 4096

/-- The state after the fetch's advance of pc (R25, R70). -/
def State.fetched (s : State) : State := { s with pc := BitVec.ofNat 16 (s.pc.toNat + 2) }

/-! ### Frames -/

/-- Every general register but the listed ones is unchanged. -/
def RegsKept (except : List Reg) (s t : State) : Prop := ∀ r : Reg, r ∉ except → t.getV r = s.getV r

/-- Every byte of memory is unchanged. -/
def MemKept (s t : State) : Prop := ∀ a : Nat, t.mem.read a = s.mem.read a

/-- Every byte of memory but the `count` bytes from `base` on is unchanged. -/
def MemKeptOutside (base count : Nat) (s t : State) : Prop :=
  ∀ a : Nat, (a < base ∨ base + count ≤ a) → t.mem.read a = s.mem.read a

/-- The stack, the keypad, the status and the schedule are unchanged. -/
structure ControlKept (s t : State) : Prop where
  sp : t.sp = s.sp
  stack : t.stack = s.stack
  key : t.key = s.key
  status : t.status = s.status
  schedule : t.schedule = s.schedule

/-- Both timers are unchanged. -/
structure TimersKept (s t : State) : Prop where
  dt : t.dt = s.dt
  st : t.st = s.st

/-- All but the general registers and the draw counter is unchanged. -/
structure OnlyRegsChange (s t : State) : Prop where
  idx : t.idx = s.idx
  pc : t.pc = s.pc
  timers : TimersKept s t
  disp : t.disp = s.disp
  mem : MemKept s t
  control : ControlKept s t

end Sys2Proof.Machine
end

