-- ==== Sys2Proof/Certificates/Slice0/Obligations.lean ====
section
/-! DEFINITION. The statements about this model, each a rule of spec/ or a property that follows from its rules. The
words they share stand first, in the namespace Claims. -/

namespace Sys2Proof.Claims

open Sys2Proof.Machine

/-! ### Words of the encoding, by number -/

/-- The unknown opcodes, as R77 lists them: by family, sub-key and low byte. -/
def UnknownWord (op : Nat) : Prop :=
  (op / 4096 = 0x0 ∧ op % 4096 ≠ 0x0E0 ∧ op % 4096 ≠ 0x0EE) ∨
  ((op / 4096 = 0x5 ∨ op / 4096 = 0x9) ∧ op % 16 ≠ 0) ∨
  (op / 4096 = 0x8 ∧ op % 16 ∈ [0x8, 0x9, 0xA, 0xB, 0xC, 0xD, 0xF]) ∨
  (op / 4096 = 0xE ∧ op % 256 ≠ 0x9E ∧ op % 256 ≠ 0xA1) ∨
  (op / 4096 = 0xF ∧ op % 256 ∉ [0x07, 0x0A, 0x15, 0x18, 0x1E, 0x29, 0x33, 0x55, 0x65])

/-- The near-miss opcodes, as R78 lists them. -/
def NearMissWord (op : Nat) : Prop :=
  (op / 4096 = 0x0 ∧ op / 256 % 16 ≠ 0 ∧ (op % 256 = 0xE0 ∨ op % 256 = 0xEE)) ∨
  ((op / 4096 = 0x5 ∨ op / 4096 = 0x9) ∧ op % 16 ≠ 0) ∨
  (op / 4096 = 0xE ∧ ((op % 16 = 0xE ∧ op / 16 % 16 ≠ 0x9) ∨ (op % 16 = 0x1 ∧ op / 16 % 16 ≠ 0xA)))

/-! ### What an instruction does to the general registers -/

/-- `i` runs in `s`, leaves the number `b` in V[x], and changes nothing else. -/
def WritesReg (i : Instr) (s : State) (x : Reg) (b : Nat) : Prop :=
  ∃ t, exec i s = .next t ∧ (t.getV x).toNat = b ∧ RegsKept [x] s t ∧ OnlyRegsChange s t ∧ t.draws = s.draws

/-- `i` runs in `s`, leaves in V[x] the byte whose bit k is `f k`, and changes nothing else. -/
def WritesRegBits (i : Instr) (s : State) (x : Reg) (f : Nat → Bool) : Prop :=
  ∃ t, exec i s = .next t ∧ (∀ k, k < 8 → (t.getV x).getLsbD k = f k) ∧ RegsKept [x] s t ∧ OnlyRegsChange s t ∧
    t.draws = s.draws

/-- `i` runs in `s`, leaves `b` in V[x] and `flag` in VF, and changes nothing else; with x = F, VF keeps `b` (R22). -/
def WritesRegAndFlag (i : Instr) (s : State) (x : Reg) (b flag : Nat) : Prop :=
  ∃ t, exec i s = .next t ∧ (t.getV x).toNat = b ∧ (x ≠ Reg.vf → (t.getV Reg.vf).toNat = flag) ∧
    RegsKept [x, Reg.vf] s t ∧ OnlyRegsChange s t ∧ t.draws = s.draws

/-- `i` skips the next instruction exactly when `c` holds: pc moves by 2 more, or, where that leaves memory, the engine
halts with PC_RANGE and nothing else is changed (R104). It does so at the odd address 0xFFD as well as at 0xFFC
(DEDUCED, log entry 12). -/
def SkipsWhen (i : Instr) (s : State) (c : Prop) : Prop :=
  (¬ c → exec i s = .next s) ∧
  (c → s.pc.toNat + 2 < 4096 → exec i s = .next { s with pc := BitVec.ofNat 16 (s.pc.toNat + 2) }) ∧
  (c → 4096 ≤ s.pc.toNat + 2 →
    exec i s = .next { s with pc := s.instrAddr, status := .halted .pcRange (s.pc.toNat + 2) })

/-! ### Exceptions -/

/-- What instruction `i` raises in the state `s` after its fetch: the table of R202, row by row. A taken skip raises where
`pc + 2` is 4096 or more (R104); R202 names the instruction at 0xFFC, and the odd address 0xFFD is another (log entry
12). -/
def raisedBy (i : Instr) (s : State) : Option Violation :=
  match i with
  | .call _ => if s.sp.val = 16 then some ⟨.stackOverflow, s.instrAddr.toNat⟩ else none
  | .ret => if s.sp.val = 0 then some ⟨.stackUnderflow, s.instrAddr.toNat⟩ else none
  | .jpV0 nnn =>
    if 4096 ≤ nnn.toNat + (s.getV 0).toNat then some ⟨.pcRange, nnn.toNat + (s.getV 0).toNat⟩ else none
  | .seImm x kk => if s.getV x = kk ∧ 4096 ≤ s.pc.toNat + 2 then some ⟨.pcRange, s.pc.toNat + 2⟩ else none
  | .sneImm x kk => if s.getV x ≠ kk ∧ 4096 ≤ s.pc.toNat + 2 then some ⟨.pcRange, s.pc.toNat + 2⟩ else none
  | .seReg x y => if s.getV x = s.getV y ∧ 4096 ≤ s.pc.toNat + 2 then some ⟨.pcRange, s.pc.toNat + 2⟩ else none
  | .sneReg x y => if s.getV x ≠ s.getV y ∧ 4096 ≤ s.pc.toNat + 2 then some ⟨.pcRange, s.pc.toNat + 2⟩ else none
  | .skp x => if s.keyDown (s.lowNibble x) = true ∧ 4096 ≤ s.pc.toNat + 2 then some ⟨.pcRange, s.pc.toNat + 2⟩ else none
  | .sknp x => if s.keyDown (s.lowNibble x) = false ∧ 4096 ≤ s.pc.toNat + 2 then some ⟨.pcRange, s.pc.toNat + 2⟩ else none
  | .drw _ _ n => if 1 ≤ n ∧ 4096 ≤ s.idx.toNat + n - 1 then some ⟨.memRange, max s.idx.toNat 4096⟩ else none
  | .ldB _ => if 4096 ≤ s.idx.toNat + 2 then some ⟨.memRange, max s.idx.toNat 4096⟩ else none
  | .stRegs x => if 4096 ≤ s.idx.toNat + x.val then some ⟨.memRange, max s.idx.toNat 4096⟩ else none
  | .ldRegs x => if 4096 ≤ s.idx.toNat + x.val then some ⟨.memRange, max s.idx.toNat 4096⟩ else none
  | .cls | .jp _ | .ldImm _ _ | .addImm _ _ | .ldReg _ _ | .orReg _ _ | .andReg _ _ | .xorReg _ _ | .addReg _ _
  | .sub _ _ | .shr _ _ | .subn _ _ | .shl _ _ | .ldI _ | .rnd _ _ | .ldVxDt _ | .ldK _ | .ldDt _ | .ldSt _
  | .addI _ | .ldF _ => none

/-- The status after a cycle that started with `old` and raised `e`, or nothing (R205). -/
def statusAfter (old : Status) : Option Violation → Status
  | some e => .halted e.cause e.info
  | none => old

/-- The count of bytes the four index-addressed instructions access from I on (R147); none for the others. -/
def indexCount : Instr → Option Nat
  | .drw _ _ n => some n
  | .ldB _ => some 3
  | .stRegs x => some (x.val + 1)
  | .ldRegs x => some (x.val + 1)
  | _ => none

/-! ### The cells of R23 -/

/-- Two states that agree on everything but V, I, DT and ST. -/
structure SameOutsideCells (s t : State) : Prop where
  pc : s.pc = t.pc
  sp : s.sp = t.sp
  stack : s.stack = t.stack
  disp : s.disp = t.disp
  key : s.key = t.key
  mem : s.mem = t.mem
  status : s.status = t.status
  draws : s.draws = t.draws
  schedule : s.schedule = t.schedule

/-- The next step is a cycle whose instruction reads a cell that holds no value, read as log entry 14 says: every cell of
the instruction's row in R23, whatever its other operands. -/
def ReadsUnwritten (m : Tracked) : Prop :=
  (nextEvent m.state).1 = .cycle ∧ m.state.status = .ready ∧ m.state.pc.toNat + 2 < 4096 ∧
  ∃ i, decodeWord (wordAt m.state m.state.pc.toNat) = .ok i ∧ ∃ c ∈ cellsRead i, m.written.has c = false

/-! ### Host steps -/

/-- What the Tick and SetKeypad steps of a plan do when its cycles do nothing. -/
def hostSteps : List Event → State → State
  | [], s => s
  | .host .tick :: es, s => hostSteps es (tick s)
  | .host (.setKeypad k) :: es, s => hostSteps es (setKeypad k s)
  | .cycle :: es, s | .host .init :: es, s | .host (.loadRom _) :: es, s => hostSteps es s

/-! ### The sprite -/

/-- The pixels that Dxyn toggles: on the display, in the sprite's 8 columns and n rows from the origin
(V[x] mod 64, V[y] mod 32), where the sprite byte of the row has a 1, bit 7 leftmost (R161, R163, R165). -/
def covers (s : State) (x y : Reg) (n px py : Nat) : Bool :=
  decide (px < 64 ∧ py < 32) &&
  decide ((s.getV x).toNat % 64 ≤ px ∧ px < (s.getV x).toNat % 64 + 8) &&
  decide ((s.getV y).toNat % 32 ≤ py ∧ py < (s.getV y).toNat % 32 + n) &&
  (s.mem.read (s.idx.toNat + (py - (s.getV y).toNat % 32))).getLsbD (7 - (px - (s.getV x).toNat % 64))

/-- The draw turns off a pixel that is lit before it (R162). -/
def Collides (s : State) (x y : Reg) (n : Nat) : Prop :=
  ∃ px py, covers s x y n px py = true ∧ pixel s.disp px py = true

/-- No row of the sprite lies outside memory (R147). -/
def SpriteInMemory (s : State) (n : Nat) : Prop := n = 0 ∨ s.idx.toNat + n ≤ 4096

end Sys2Proof.Claims

open Sys2Proof Sys2Proof.Machine Sys2Proof.Claims

/-! ### Encoding -/

/-- Decoding the bytes of any well-formed instruction, whatever follows them, gives it back with what follows
(R71, R72, R73). -/
def Obligations.DecodeOfEncodeIsTheInstruction : Prop :=
  ∀ (i : Instr) (rest : List Byte), i.wf = true → decodeBytes (encode i ++ rest) = .ok (i, rest)

/-- A word that decodes is the word of its instruction, bit for bit, and the instruction is well-formed
(R73, R75). -/
def Obligations.EncodeOfDecodeIsTheWord : Prop :=
  ∀ (op : Word) (i : Instr), decodeWord op = .ok i → i.wf = true ∧ encodeWord i = op

/-- R75: the instruction selected is the row of the opcode table with `(op & mask) = match`. -/
def Obligations.DecodeSelectsTheMatchingRow : Prop :=
  ∀ (op : Word) (r : Row), r ∈ opcodeTable → (r.Matches op ↔ ∃ i, decodeWord op = .ok i ∧ i.row = r)

/-- R83: no two rows match the same opcode, and an opcode selects no instruction exactly when it is unknown. The table
has 34 rows, all different. -/
def Obligations.RowsOfTheTableAreDisjoint : Prop :=
  opcodeTable.length = 34 ∧ opcodeTable.Nodup ∧
  (∀ (op : Word) (r r' : Row), r ∈ opcodeTable → r' ∈ opcodeTable → r.Matches op → r'.Matches op → r = r') ∧
  (∀ op : Word, (∀ i, decodeWord op ≠ .ok i) ↔ UnknownWord op.toNat)

/-- R77, R78: the words that are rejected, and under which name: the unknown opcodes, the near misses among them apart. -/
def Obligations.RejectedWordsAreTheUnknownOpcodes : Prop :=
  ∀ op : Word,
    (¬ UnknownWord op.toNat → ∃ i, decodeWord op = .ok i) ∧
    (UnknownWord op.toNat → NearMissWord op.toNat → decodeWord op = .error (.nearMiss op)) ∧
    (UnknownWord op.toNat → ¬ NearMissWord op.toNat → decodeWord op = .error (.unknownOpcode op)) ∧
    (NearMissWord op.toNat → UnknownWord op.toNat)

/-- Words written out from R72 and R80, one or two of each family, decode to the instructions they stand for. -/
def Obligations.WordsOfEachFamilyDecode : Prop :=
  decodeWord 0x00E0#16 = .ok .cls ∧ decodeWord 0x00EE#16 = .ok .ret ∧ decodeWord 0x1204#16 = .ok (.jp 0x204) ∧
  decodeWord 0x2300#16 = .ok (.call 0x300) ∧ decodeWord 0x3A05#16 = .ok (.seImm 10 0x05) ∧
  decodeWord 0x4E7F#16 = .ok (.sneImm 14 0x7F) ∧ decodeWord 0x52C0#16 = .ok (.seReg 2 12) ∧
  decodeWord 0x71FE#16 = .ok (.addImm 1 0xFE) ∧ decodeWord 0xB103#16 = .ok (.jpV0 0x103) ∧
  decodeWord 0x9120#16 = .ok (.sneReg 1 2) ∧ decodeWord 0x6A7B#16 = .ok (.ldImm 10 0x7B) ∧
  decodeWord 0x80F5#16 = .ok (.sub 0 15) ∧ decodeWord 0x8F4E#16 = .ok (.shl 15 4) ∧
  decodeWord 0xA20C#16 = .ok (.ldI 0x20C) ∧ decodeWord 0xC00F#16 = .ok (.rnd 0 0x0F) ∧
  decodeWord 0xD12F#16 = .ok (.drw 1 2 15) ∧ decodeWord 0xE5A1#16 = .ok (.sknp 5) ∧
  decodeWord 0xF70A#16 = .ok (.ldK 7) ∧ decodeWord 0xFF65#16 = .ok (.ldRegs 15)

/-! ### The engine's cycle -/

/-- R70: with nothing scheduled and the engine Ready below 0xFFE, a step runs the instruction that the two bytes at pc
decode to, in the state whose pc is past them. -/
def Obligations.StepRunsTheDecodedInstruction : Prop :=
  ∀ (s : State) (i : Instr) (rest : List Byte), Fetchable s →
    decodeBytes [s.mem.read s.pc.toNat, s.mem.read (s.pc.toNat + 1)] = .ok (i, rest) →
    step s = exec i { s with pc := BitVec.ofNat 16 (s.pc.toNat + 2) }

/-- The same where the schedule's next event is a cycle, and a scheduled host operation is the step (R43, R44). The
schedule is the model's own way to hold the order of steps (log entry 6). -/
def Obligations.ScheduledEventIsTheNextStep : Prop :=
  ∀ (s : State) (rest : List Event),
    (∀ i bs, s.schedule = .cycle :: rest → s.status = .ready → s.pc.toNat + 2 < 4096 →
      decodeBytes [s.mem.read s.pc.toNat, s.mem.read (s.pc.toNat + 1)] = .ok (i, bs) →
      step s = exec i { s with pc := BitVec.ofNat 16 (s.pc.toNat + 2), schedule := rest }) ∧
    (∀ op, s.schedule = .host op :: rest → step s = hostStep op { s with schedule := rest })

/-- R77: an unknown opcode is a no-op; its only effect is the pc advance of the fetch. For the near misses among them this
rests on `step` running under NEAR_MISS_POLICY = noop (DESIGN CHOICE, log entry 7). A cycle that stands first in the
schedule is taken off it. -/
def Obligations.UnknownOpcodeIsANoOp : Prop :=
  ∀ s : State, s.status = .ready → (nextEvent s).1 = .cycle → s.pc.toNat + 2 < 4096 →
    UnknownWord (wordAt s s.pc.toNat).toNat →
    step s = .next { s with pc := BitVec.ofNat 16 (s.pc.toNat + 2), schedule := s.schedule.tail }

/-- R78: a near-miss opcode is a no-op under NEAR_MISS_POLICY = noop and refused under refuse, and every other word does
the same under both, an unknown opcode that is no near miss being a no-op. -/
def Obligations.NearMissPolicyDecidesNearMissesAlone : Prop :=
  ∀ s : State, s.status = .ready → (nextEvent s).1 = .cycle → s.pc.toNat + 2 < 4096 →
    (NearMissWord (wordAt s s.pc.toNat).toNat →
      stepUnder .noop s = .next { s with pc := BitVec.ofNat 16 (s.pc.toNat + 2), schedule := s.schedule.tail } ∧
      stepUnder .refuse s = .refused (.nearMissOpcode (wordAt s s.pc.toNat))) ∧
    (¬ NearMissWord (wordAt s s.pc.toNat).toNat → stepUnder .refuse s = stepUnder .noop s) ∧
    (¬ NearMissWord (wordAt s s.pc.toNat).toNat → UnknownWord (wordAt s s.pc.toNat).toNat →
      ∀ p, stepUnder p s = .next { s with pc := BitVec.ofNat 16 (s.pc.toNat + 2), schedule := s.schedule.tail })

/-- R54, R202, R203: a cycle at 0xFFE halts with PC_RANGE(0x1000) and one at 0xFFF with MEM_RANGE(0x1000), before any
instruction runs, and nothing else changes. So does a cycle that stands first in the schedule, which it is taken off. -/
def Obligations.FetchAtTheTopOfMemoryHalts : Prop :=
  ∀ s : State, s.status = .ready → (nextEvent s).1 = .cycle →
    (s.pc.toNat = 0xFFE →
      step s = .next { s with status := .halted .pcRange 0x1000, schedule := s.schedule.tail }) ∧
    (s.pc.toNat = 0xFFF →
      step s = .next { s with status := .halted .memRange 0x1000, schedule := s.schedule.tail })

/-- R70, R207: in every status but Ready a cycle has no step, scheduled or not. That the model answers a refusal in Created and LoadFailed
and a fault in Halted is its own choice of outcome (log entry 9). -/
def Obligations.NoCycleOutsideReady : Prop :=
  ∀ s : State, (nextEvent s).1 = .cycle →
    (s.status = .created → step s = .refused .noRomLoaded) ∧
    (∀ n, s.status = .loadFailed n → step s = .refused (.romRejected n)) ∧
    (∀ c n, s.status = .halted c n → step s = .fault (.engineHalted c n))

/-! ### Exceptions and invariants -/

/-- R206: faults are precise. A cycle that halts the engine leaves every other part of the state, pc among them, as it was
before the cycle; a cycle that stands first in the schedule is taken off it. -/
def Obligations.FaultingCycleCommitsNothing : Prop :=
  ∀ (s t : State) (c : Cause) (n : Nat), s.status = .ready → (nextEvent s).1 = .cycle → step s = .next t →
    t.status = .halted c n → t = { s with status := .halted c n, schedule := s.schedule.tail }

/-- R202, R104: everything that raises an InvariantViolation, with its cause and info: the two rows of the fetch, and each
instruction's row; no other instruction and no other condition raises. In states that meet the invariants of R41. Every
cycle in Ready falls under one of the first four clauses: at 0xFFF, at 0xFFE, and below them at a word that decodes, where
the status after it is that of the instruction's row, or at an unknown opcode, which raises nothing. The row of the skips
holds at 0xFFD as well as at 0xFFC (log entry 12); that a near miss raises nothing rests on NEAR_MISS_POLICY = noop (log
entry 7). -/
def Obligations.OnlyTheListedConditionsRaise : Prop :=
  (∀ s : State, s.status = .ready → (nextEvent s).1 = .cycle → s.pc.toNat = 0xFFF →
    ∃ t, step s = .next t ∧ t.status = .halted .memRange 0x1000) ∧
  (∀ s : State, s.status = .ready → (nextEvent s).1 = .cycle → s.pc.toNat = 0xFFE →
    ∃ t, step s = .next t ∧ t.status = .halted .pcRange 0x1000) ∧
  (∀ (s : State) (i : Instr), Inv s → s.status = .ready → (nextEvent s).1 = .cycle → s.pc.toNat + 2 < 4096 →
    decodeWord (wordAt s s.pc.toNat) = .ok i →
    ∃ t, step s = .next t ∧ t.status = statusAfter .ready (raisedBy i s.fetched)) ∧
  (∀ s : State, s.status = .ready → (nextEvent s).1 = .cycle → s.pc.toNat + 2 < 4096 →
    UnknownWord (wordAt s s.pc.toNat).toNat → ∃ t, step s = .next t ∧ t.status = .ready) ∧
  (∀ (i : Instr) (s t : State), Inv s → exec i s = .next t →
    t.status = statusAfter s.status (raisedBy i s))

/-- R41: the invariants hold after every step from a state that meets them, host operations included. -/
def Obligations.EveryStepKeepsTheInvariants : Prop :=
  ∀ s t : State, Inv s → step s = .next t → Inv t

/-- The state after Init meets the invariants, and its status records nothing. -/
def Obligations.ResetMeetsTheInvariants : Prop := Inv State.reset ∧ StatusRecord State.reset

/-- R201, R231: what a halted or failed status records stays true after every step: a stack fault the address pc still
holds with the stack full or empty, a range fault a value of 4096 or more, a LoadError a size above 3584. -/
def Obligations.EveryStepKeepsTheStatusRecord : Prop :=
  ∀ s t : State, StatusRecord s → step s = .next t → StatusRecord t

/-- R207, R208: Halted keeps its cause and info, and LoadFailed its size, through every step but Init, which leads to
Created. -/
def Obligations.OnlyInitLeavesHalted : Prop :=
  ∀ s t : State, ((∃ c n, s.status = .halted c n) ∨ ∃ size, s.status = .loadFailed size) → step s = .next t →
    (s.schedule.head? ≠ some (.host .init) → t.status = s.status) ∧
    (s.schedule.head? = some (.host .init) → t.status = .created)

/-- R147: the four index-addressed instructions fault exactly when the last byte they access lies at 4096 or above; the
fault records the first such address, and nothing else changes. -/
def Obligations.IndexAccessFaultsExactlyOutsideMemory : Prop :=
  ∀ (i : Instr) (count : Nat) (s : State), indexCount i = some count → s.status = .ready →
    (1 ≤ count ∧ 4096 ≤ s.idx.toNat + count - 1 →
      exec i s = .next { s with pc := s.instrAddr, status := .halted .memRange (max s.idx.toNat 4096) }) ∧
    (¬ (1 ≤ count ∧ 4096 ≤ s.idx.toNat + count - 1) → ∃ t, exec i s = .next t ∧ t.status = .ready)

/-! ### Whole-machine rules -/

/-- R27, R28, R30, R31, R32, R55: which instructions may change the keypad (none), the timers, the display, the stack,
memory and I. Ticks are no side effect of an instruction. -/
def Obligations.EachUnitIsWrittenByItsOwnInstructionsAlone : Prop :=
  ∀ (i : Instr) (s t : State), exec i s = .next t →
    t.key = s.key ∧ t.schedule = s.schedule ∧
    (t.dt = s.dt ∨ ∃ x, i = .ldDt x) ∧
    (t.st = s.st ∨ ∃ x, i = .ldSt x) ∧
    (t.disp = s.disp ∨ i = .cls ∨ ∃ x y n, i = .drw x y n) ∧
    ((t.sp = s.sp ∧ t.stack = s.stack) ∨ i = .ret ∨ ∃ nnn, i = .call nnn) ∧
    (MemKept s t ∨ (∃ x, i = .ldB x) ∨ ∃ x, i = .stRegs x) ∧
    (t.idx = s.idx ∨ (∃ nnn, i = .ldI nnn) ∨ (∃ x, i = .addI x) ∨ ∃ x, i = .ldF x) ∧
    (t.draws = s.draws ∨ ∃ x kk, i = .rnd x kk)

/-- R23, the column "writes": a cell among V, I, DT and ST that is not in it keeps its value. -/
def Obligations.CellsOutsideTheWriteSetAreKept : Prop :=
  ∀ (i : Instr) (s t : State), exec i s = .next t →
    ∀ c : RegCell, c ∉ cellsWritten i s → cellValue c t = cellValue c s

/-- R23, the column "reads": what an instruction does depends on no cell outside it. Two states that differ only in such
cells lead to states that agree on everything but the cells the instruction did not write. -/
def Obligations.CellsOutsideTheReadSetDoNotMatter : Prop :=
  ∀ (i : Instr) (s s' : State), s.status = .ready → SameOutsideCells s s' →
    (∀ c ∈ cellsRead i, cellValue c s = cellValue c s') →
    ∃ t t', exec i s = .next t ∧ exec i s' = .next t' ∧ SameOutsideCells t t' ∧
      (t.status = .ready → ∀ c ∈ cellsWritten i s, cellValue c t = cellValue c t')

/-- R194, R236: a Tick commutes with every instruction but the three of the timers. -/
def Obligations.TickCommutesWithOtherInstructions : Prop :=
  ∀ (i : Instr) (s : State), (∀ x, i ≠ .ldVxDt x ∧ i ≠ .ldDt x ∧ i ≠ .ldSt x) →
    ∃ t, exec i s = .next t ∧ exec i (tick s) = .next (tick t)

/-- R183, R204: a new keypad snapshot commutes with every instruction but the three that read keys. -/
def Obligations.SetKeypadCommutesWithOtherInstructions : Prop :=
  ∀ (i : Instr) (s : State) (k : Keys), (∀ x, i ≠ .skp x ∧ i ≠ .sknp x ∧ i ≠ .ldK x) →
    ∃ t, exec i s = .next t ∧ exec i (setKeypad k s) = .next (setKeypad k t)

/-! ### Registers -/

/-- R121, R123, R190: 6xkk, 8xy0 and Fx07 put kk, V[y] and DT in V[x] and change nothing else. -/
def Obligations.LoadsPutTheirOperandInTheRegister : Prop :=
  ∀ (s : State) (x y : Reg) (kk : Byte),
    WritesReg (.ldImm x kk) s x kk.toNat ∧ WritesReg (.ldReg x y) s x (s.getV y).toNat ∧
    WritesReg (.ldVxDt x) s x s.dt.toNat

/-- R122: 7xkk adds modulo 256 and writes no flag. -/
def Obligations.AddImmediateWrapsAndSetsNoFlag : Prop :=
  ∀ (s : State) (x : Reg) (kk : Byte), WritesReg (.addImm x kk) s x (((s.getV x).toNat + kk.toNat) % 256)

/-- R124 to R127: 8xy1, 8xy2 and 8xy3 are the bitwise OR, AND and XOR, and write no flag. -/
def Obligations.LogicActsBitByBitAndSetsNoFlag : Prop :=
  ∀ (s : State) (x y : Reg),
    WritesRegBits (.orReg x y) s x (fun k => (s.getV x).getLsbD k || (s.getV y).getLsbD k) ∧
    WritesRegBits (.andReg x y) s x (fun k => (s.getV x).getLsbD k && (s.getV y).getLsbD k) ∧
    WritesRegBits (.xorReg x y) s x (fun k => (s.getV x).getLsbD k ^^ (s.getV y).getLsbD k)

/-- R128: 8xy4 gives the sum modulo 256 and the carry. -/
def Obligations.AddSetsTheCarry : Prop :=
  ∀ (s : State) (x y : Reg),
    WritesRegAndFlag (.addReg x y) s x (((s.getV x).toNat + (s.getV y).toNat) % 256)
      (if (s.getV x).toNat + (s.getV y).toNat > 255 then 1 else 0)

/-- R129, R131: 8xy5 and 8xy7 give the difference modulo 256, and the flag is strict greater-than. -/
def Obligations.SubtractSetsTheStrictGreaterFlag : Prop :=
  ∀ (s : State) (x y : Reg),
    WritesRegAndFlag (.sub x y) s x ((256 + (s.getV x).toNat - (s.getV y).toNat) % 256)
      (if (s.getV x).toNat > (s.getV y).toNat then 1 else 0) ∧
    WritesRegAndFlag (.subn x y) s x ((256 + (s.getV y).toNat - (s.getV x).toNat) % 256)
      (if (s.getV y).toNat > (s.getV x).toNat then 1 else 0)

/-- R130, R132: 8xy6 and 8xyE shift V[x] by one, VF gets the bit shifted out, and y plays no part. -/
def Obligations.ShiftsSetTheBitShiftedOut : Prop :=
  ∀ (s : State) (x y : Reg),
    WritesRegAndFlag (.shr x y) s x ((s.getV x).toNat / 2) ((s.getV x).toNat % 2) ∧
    WritesRegAndFlag (.shl x y) s x ((s.getV x).toNat * 2 % 256) ((s.getV x).toNat / 128)

/-- R133: Cxkk gives a draw ANDed with kk, so every bit that kk clears is 0, and takes one draw. The draw is the free byte
of the model's counter (log entry 5). -/
def Obligations.RandomIsADrawMaskedByTheImmediate : Prop :=
  ∀ (s : State) (x : Reg) (kk : Byte),
    ∃ t, exec (.rnd x kk) s = .next t ∧ t.draws = s.draws + 1 ∧
      (∀ k, k < 8 → (t.getV x).getLsbD k = ((Config.randomByte s.draws).getLsbD k && kk.getLsbD k)) ∧
      RegsKept [x] s t ∧ OnlyRegsChange s t

/-! ### Control flow -/

/-- R101: 1nnn sets pc to nnn and changes nothing else. -/
def Obligations.JumpSetsPcToItsTarget : Prop :=
  ∀ (s : State) (nnn : Addr), exec (.jp nnn) s = .next { s with pc := BitVec.ofNat 16 nnn.toNat }

/-- R103: Bnnn goes to the exact sum nnn + V0, and halts with PC_RANGE where it is 4096 or more. -/
def Obligations.JumpPlusV0GoesToTheExactSum : Prop :=
  ∀ (s : State) (nnn : Addr),
    (nnn.toNat + (s.getV 0).toNat < 4096 →
      exec (.jpV0 nnn) s = .next { s with pc := BitVec.ofNat 16 (nnn.toNat + (s.getV 0).toNat) }) ∧
    (4096 ≤ nnn.toNat + (s.getV 0).toNat →
      exec (.jpV0 nnn) s =
        .next { s with pc := s.instrAddr, status := .halted .pcRange (nnn.toNat + (s.getV 0).toNat) })

/-- R100: 2nnn pushes pc, the address past the CALL, and jumps; on a full stack it halts with STACK_OVERFLOW and its own
address, and nothing is written. -/
def Obligations.CallPushesTheReturnAddress : Prop :=
  ∀ (s : State) (nnn : Addr),
    (s.sp.val < 16 → ∃ t, exec (.call nnn) s = .next t ∧ t.pc.toNat = nnn.toNat ∧ t.sp.val = s.sp.val + 1 ∧
      (∀ k : Fin 16, t.slot k = if k.val = s.sp.val then s.pc else s.slot k) ∧
      t = { s with pc := t.pc, sp := t.sp, stack := t.stack }) ∧
    (s.sp.val = 16 →
      exec (.call nnn) s = .next { s with pc := s.instrAddr, status := .halted .stackOverflow s.instrAddr.toNat })

/-- R102: 00EE takes one address off the stack and goes there; the slot keeps its value. On an empty stack it halts with
STACK_UNDERFLOW and its own address, and nothing is written. A slot holds a value below 4096 (R41). -/
def Obligations.ReturnPopsTheReturnAddress : Prop :=
  ∀ s : State,
    (∀ k : Fin 16, s.sp.val = k.val + 1 → (s.slot k).toNat < 4096 →
      ∃ t, exec .ret s = .next t ∧ t.pc = s.slot k ∧ t.sp.val = k.val ∧ t = { s with pc := t.pc, sp := t.sp }) ∧
    (s.sp.val = 0 →
      exec .ret s = .next { s with pc := s.instrAddr, status := .halted .stackUnderflow s.instrAddr.toNat })

/-- R104 to R107: the four register skips skip exactly when their condition holds. That a skip taken at 0xFFD halts too is
the model's inference (log entry 12). -/
def Obligations.RegisterSkipsFollowTheirCondition : Prop :=
  ∀ (s : State) (x y : Reg) (kk : Byte),
    SkipsWhen (.seImm x kk) s ((s.getV x).toNat = kk.toNat) ∧
    SkipsWhen (.sneImm x kk) s ((s.getV x).toNat ≠ kk.toNat) ∧
    SkipsWhen (.seReg x y) s ((s.getV x).toNat = (s.getV y).toNat) ∧
    SkipsWhen (.sneReg x y) s ((s.getV x).toNat ≠ (s.getV y).toNat)

/-- R110: a CALL at `a` and then the RET at its target lead to `a + 2` with sp as before; nothing else changes but the
slot, which holds `a + 2`. -/
def Obligations.CallThenReturnIsARoundTrip : Prop :=
  ∀ (s : State) (nnn : Addr) (h : s.sp.val < 16), Fetchable s → nnn.toNat + 2 < 4096 →
    wordAt s s.pc.toNat = encodeWord (.call nnn) → wordAt s nnn.toNat = encodeWord .ret →
    core.run 2 s = .next { s with
      pc := BitVec.ofNat 16 (s.pc.toNat + 2)
      stack := s.stack.set s.sp.val (BitVec.ofNat 16 (s.pc.toNat + 2)) h }

/-- R239: at a jump to itself every further cycle leaves the state unchanged except for host steps: any number of cycles
does nothing when nothing is scheduled, and after `k` cycles with Tick and SetKeypad steps between them the state is what
those host steps alone make of it. -/
def Obligations.SpinningChangesNothing : Prop :=
  ∀ (k : Nat) (s : State), Spinning s →
    (s.schedule = [] → core.run k s = .next s) ∧
    (∀ plan, CyclePlan k plan → AfterCycles k plan s { hostSteps plan s with schedule := [] })

/-! ### The index register and memory -/

/-- R140, R141, R142: Annn loads I, Fx1E adds modulo 65536 without a flag, Fx29 points I at the glyph of the low nibble,
which lies with the whole font below 0x200. -/
def Obligations.IndexInstructionsWriteTheIndexAlone : Prop :=
  ∀ (s : State) (x : Reg) (nnn : Addr),
    exec (.ldI nnn) s = .next { s with idx := BitVec.ofNat 16 nnn.toNat } ∧
    exec (.addI x) s = .next { s with idx := BitVec.ofNat 16 ((s.idx.toNat + (s.getV x).toNat) % 65536) } ∧
    ∃ t, exec (.ldF x) s = .next t ∧ t = { s with idx := t.idx } ∧
      t.idx.toNat = fontBase + (s.getV x).toNat % 16 * 5 ∧ fontBase + 80 ≤ 0x200

/-- R143: Fx33 stores the hundreds, tens and ones of V[x] at I, I+1 and I+2; no other byte of memory and nothing else
changes. Where one of the three addresses is 4096 or more, it halts with MEM_RANGE of the first such and stores nothing. -/
def Obligations.BcdStoresThreeDigits : Prop :=
  ∀ (s : State) (x : Reg),
    (s.idx.toNat + 2 < 4096 → ∃ t, exec (.ldB x) s = .next t ∧
      (t.mem.read s.indexBase).toNat = (s.getV x).toNat / 100 ∧
      (t.mem.read (s.indexBase + 1)).toNat = (s.getV x).toNat / 10 % 10 ∧
      (t.mem.read (s.indexBase + 2)).toNat = (s.getV x).toNat % 10 ∧
      MemKeptOutside s.indexBase 3 s t ∧ t = { s with mem := t.mem }) ∧
    (4096 ≤ s.idx.toNat + 2 →
      exec (.ldB x) s = .next { s with pc := s.instrAddr, status := .halted .memRange (max s.idx.toNat 4096) })

/-- R144: Fx55 stores V0 to Vx at I to I+x; no other byte of memory and nothing else changes, I among it. Where I+x is 4096
or more, it halts with MEM_RANGE of the first address outside memory and stores nothing. -/
def Obligations.StoreRegistersWritesThemInOrder : Prop :=
  ∀ (s : State) (x : Reg),
    (s.idx.toNat + x.val < 4096 → ∃ t, exec (.stRegs x) s = .next t ∧
      (∀ r : Reg, r ≤ x → t.mem.read (s.indexBase + r.val) = s.getV r) ∧
      MemKeptOutside s.indexBase (x.val + 1) s t ∧ t = { s with mem := t.mem }) ∧
    (4096 ≤ s.idx.toNat + x.val →
      exec (.stRegs x) s = .next { s with pc := s.instrAddr, status := .halted .memRange (max s.idx.toNat 4096) })

/-- R145: Fx65 loads V0 to Vx from I to I+x; the registers above x and everything else, I among it, keep their values.
Where I+x is 4096 or more, it halts with MEM_RANGE of the first address outside memory and loads nothing. -/
def Obligations.LoadRegistersReadsThemInOrder : Prop :=
  ∀ (s : State) (x : Reg),
    (s.idx.toNat + x.val < 4096 → ∃ t, exec (.ldRegs x) s = .next t ∧
      (∀ r : Reg, r ≤ x → t.getV r = s.mem.read (s.indexBase + r.val)) ∧
      (∀ r : Reg, x < r → t.getV r = s.getV r) ∧ OnlyRegsChange s t ∧ t.draws = s.draws) ∧
    (4096 ≤ s.idx.toNat + x.val →
      exec (.ldRegs x) s = .next { s with pc := s.instrAddr, status := .halted .memRange (max s.idx.toNat 4096) })

/-- R63: bytes that Fx55 stores are what a later fetch of their addresses decodes and runs. -/
def Obligations.StoredBytesAreFetchedAsCode : Prop :=
  ∀ (s t u : State) (x r q : Reg) (i : Instr) (rest : List Byte),
    exec (.stRegs x) s = .next t → t.status = .ready → s.status = .ready → u.mem = t.mem → Fetchable u →
    q ≤ x → q.val = r.val + 1 → u.pc.toNat = s.idx.toNat + r.val →
    decodeBytes [s.getV r, s.getV q] = .ok (i, rest) →
    step u = exec i { u with pc := BitVec.ofNat 16 (u.pc.toNat + 2) }

/-- Two memories in canonical form that read the same at every address are the same data. -/
def Obligations.CanonicalMemoriesThatReadAlikeAreEqual : Prop :=
  ∀ m m' : Memory, m.wf = true → m'.wf = true → (∀ a, m.read a = m'.read a) → m = m'

/-! ### The display -/

/-- R160: 00E0 clears every pixel and changes nothing else. -/
def Obligations.ClearTurnsEveryPixelOff : Prop :=
  ∀ s : State, ∃ t, exec .cls s = .next t ∧ (∀ px py, pixel t.disp px py = false) ∧ t = { s with disp := t.disp }

/-- R161, R162, R163, R165: Dxyn toggles exactly the covered pixels that lie on the display, VF is 1 if and only if one of
them was lit, and nothing else changes. Where a row lies at 4096 or above, clipped or not, it halts with MEM_RANGE of the
first such address and draws nothing. -/
def Obligations.DrawTogglesTheCoveredPixels : Prop :=
  ∀ (s : State) (x y : Reg) (n : Nat),
    (SpriteInMemory s n → ∃ t, exec (.drw x y n) s = .next t ∧
      (∀ px py, pixel t.disp px py = (pixel s.disp px py ^^ covers s x y n px py)) ∧
      (Collides s x y n → t.getV Reg.vf = 1) ∧ (¬ Collides s x y n → t.getV Reg.vf = 0) ∧
      RegsKept [Reg.vf] s t ∧ t = { s with v := t.v, disp := t.disp }) ∧
    (¬ SpriteInMemory s n →
      exec (.drw x y n) s = .next { s with pc := s.instrAddr, status := .halted .memRange (max s.idx.toNat 4096) })

/-- R164: with n = 0 nothing is read or drawn, wherever I points, and VF becomes 0. -/
def Obligations.DrawOfNoRowsClearsTheFlag : Prop :=
  ∀ (s : State) (x y : Reg), exec (.drw x y 0) s = .next (s.setV Reg.vf 0)

/-- The source's property 4 (spec/95_test_vectors.md S4; C7): drawing the same sprite twice restores the display, and the
second VF is 1 exactly when a pixel the sprite covers is lit after the first draw. -/
def Obligations.DrawingTwiceRestoresTheDisplay : Prop :=
  ∀ (s : State) (x y : Reg) (n : Nat), x ≠ Reg.vf → y ≠ Reg.vf → SpriteInMemory s n →
    ∃ t u, exec (.drw x y n) s = .next t ∧ exec (.drw x y n) t = .next u ∧ u.disp = s.disp ∧
      (u.getV Reg.vf = 1 ↔ ∃ px py, covers s x y n px py = true ∧ pixel t.disp px py = true)

/-- R166: the flat display is row-major: pixel (px, py) is element py * 64 + px of 2048. -/
def Obligations.FlatDisplayIsRowMajor : Prop :=
  ∀ (d : Display), (flatDisplay d).length = 2048 ∧
    ∀ px py, px < 64 → py < 32 → (flatDisplay d)[py * 64 + px]? = some (pixel d px py)

/-! ### The keypad -/

/-- R180, R181: Ex9E and ExA1 test the key of the low nibble of V[x]. That a skip taken at 0xFFD halts too is the model's
inference (log entry 12). -/
def Obligations.KeySkipsTestTheLowNibble : Prop :=
  ∀ (s : State) (x : Reg) (k : Fin 16), (s.getV x).toNat % 16 = k.val →
    SkipsWhen (.skp x) s (s.keyDown k = true) ∧ SkipsWhen (.sknp x) s (s.keyDown k = false)

/-- R182: Fx0A with every key up goes back to itself and changes nothing else; else V[x] gets the lowest key down. -/
def Obligations.KeyWaitTakesTheLowestKeyDown : Prop :=
  ∀ (s : State) (x : Reg),
    ((∀ k : Fin 16, s.keyDown k = false) → exec (.ldK x) s = .next { s with pc := s.pc - 2 }) ∧
    (∀ k : Fin 16, s.keyDown k = true → (∀ j : Fin 16, j < k → s.keyDown j = false) →
      WritesReg (.ldK x) s x k.val)

/-- R184: while no key is down, any number of cycles at an Fx0A leaves the state as it is; with a key down the next one
gives V[x] that key and passes. -/
def Obligations.KeyWaitRepeatsUntilAKeyIsDown : Prop :=
  ∀ (s : State) (x : Reg), Fetchable s → wordAt s s.pc.toNat = encodeWord (.ldK x) →
    ((∀ k : Fin 16, s.keyDown k = false) → ∀ n, core.run n s = .next s) ∧
    (∀ k : Fin 16, s.keyDown k = true → (∀ j : Fin 16, j < k → s.keyDown j = false) →
      ∃ t, step s = .next t ∧ t.pc.toNat = s.pc.toNat + 2 ∧ (t.getV x).toNat = k.val ∧ RegsKept [x] s t ∧
        t = { s with v := t.v, pc := t.pc })

/-! ### The timers and the host -/

/-- R191, R192: Fx15 and Fx18 put V[x] in DT and ST and change nothing else. -/
def Obligations.TimerLoadsCopyTheRegister : Prop :=
  ∀ (s : State) (x : Reg),
    (∃ t, exec (.ldDt x) s = .next t ∧ t.dt = s.getV x ∧ t = { s with dt := t.dt }) ∧
    (∃ t, exec (.ldSt x) s = .next t ∧ t.st = s.getV x ∧ t = { s with st := t.st })

/-- R193, R194: a Tick, in any status, takes one from each counter that is not 0 and changes nothing else. -/
def Obligations.TickCountsBothTimersDown : Prop :=
  ∀ (s : State) (rest : List Event), s.schedule = .host .tick :: rest →
    ∃ t, step s = .next t ∧ t.dt.toNat = s.dt.toNat - 1 ∧ t.st.toNat = s.st.toNat - 1 ∧
      t = { s with dt := t.dt, st := t.st, schedule := rest }

/-- R183: SetKeypad, in any status, replaces the whole snapshot and changes nothing else; no instruction writes the
snapshot. -/
def Obligations.SetKeypadReplacesTheSnapshot : Prop :=
  (∀ (s : State) (k : Keys) (rest : List Event), s.schedule = .host (.setKeypad k) :: rest →
    step s = .next { s with key := k, schedule := rest }) ∧
  (∀ (i : Instr) (s t : State), exec i s = .next t → t.key = s.key)

/-- R231: in Created, LoadRom of at most 3584 bytes copies them to 0x200 and on, keeps every other byte, and makes the
engine Ready; a longer ROM gives LoadFailed with its length and leaves memory; in any other status LoadRom is not
admitted. -/
def Obligations.LoadRomCopiesOrRejects : Prop :=
  ∀ (s : State) (bytes : List Byte) (rest : List Event), s.schedule = .host (.loadRom bytes) :: rest →
    (s.status = .created → bytes.length ≤ 3584 →
      ∃ t, step s = .next t ∧ t.status = .ready ∧
        (∀ k (h : k < bytes.length), t.mem.read (0x200 + k) = bytes[k]) ∧
        MemKeptOutside 0x200 bytes.length s t ∧
        t = { s with mem := t.mem, status := .ready, schedule := rest }) ∧
    (s.status = .created → 3584 < bytes.length →
      step s = .next { s with status := .loadFailed bytes.length, schedule := rest }) ∧
    (s.status ≠ .created → step s = .refused .loadRomNotAdmitted)

/-- R40, R57, R230: Init, in any status, leaves pc at 0x200, an empty stack with every slot 0, a blank display, every key
up, the status Created, and memory 0 but for the font, which lies below 0x200. V, I, DT and ST are 0: the setting `zero`
of RESET_POLICY, the model's choice (log entry 1). -/
def Obligations.InitLeavesTheResetState : Prop :=
  ∀ (s : State) (rest : List Event), s.schedule = .host .init :: rest →
    ∃ t, step s = .next t ∧ t.pc = 0x200 ∧ t.sp.val = 0 ∧ (∀ k, t.slot k = 0) ∧ (∀ k, t.keyDown k = false) ∧
      (∀ px py, pixel t.disp px py = false) ∧ t.status = .created ∧ (∀ r, t.getV r = 0) ∧ t.idx = 0 ∧ t.dt = 0 ∧
      t.st = 0 ∧ t.schedule = rest ∧ fontBase + 80 ≤ 0x200 ∧
      (∀ a, t.mem.read a = if fontBase ≤ a ∧ a < fontBase + 80 then fontByte (a - fontBase) else 0)

/-- R142, R146: the font is in place after Init, and a LoadRom keeps it; where it is, Fx29 points I at the five bytes of
FONT_DATA that belong to the digit in the low nibble of V[x], whatever else memory holds. -/
def Obligations.GlyphAddressHoldsTheGlyph : Prop :=
  FontInPlace State.reset.mem ∧
  (∀ (s t : State) (bytes : List Byte), FontInPlace s.mem → hostStep (.loadRom bytes) s = .next t →
    FontInPlace t.mem) ∧
  (∀ (s : State) (x : Reg) (r : Nat), FontInPlace s.mem → r < 5 →
    ∃ t, exec (.ldF x) s = .next t ∧ t.mem.read (t.idx.toNat + r) = fontByte ((s.getV x).toNat % 16 * 5 + r))

/-! ### The layer for RESET_POLICY = refuse_unwritten_read -/

/-- R40, R193, R205: under `refuse_unwritten_read` a step is refused as an unwritten read exactly when it is a cycle whose
instruction reads a cell without a value, which is read off the table of R23 whatever the operands: the model's choice
(log entry 14). Every other step is the machine's, with this record of the cells that hold a value after it: none after
Init; as before after any other host operation, after a cycle that faults and after one that runs no instruction; and
after an instruction that runs to its end, those before it and those the instruction writes. It holds under both settings
of NEAR_MISS_POLICY; `trackedStep` and `step` are the setting noop (log entry 7). -/
def Obligations.TrackedStepIsTheStepOrARefusal : Prop :=
  ∀ (p : NearMissPolicy) (m : Tracked),
    (trackedStepUnder p m = .refused .unwrittenRead ↔ ReadsUnwritten m) ∧
    (¬ ReadsUnwritten m → ∃ f : State → Written, trackedStepUnder p m = withWritten f (stepUnder p m.state) ∧
      ∀ t, stepUnder p m.state = .next t →
        (m.state.schedule.head? = some (.host .init) → f t = Written.none) ∧
        (∀ op, op ≠ .init → m.state.schedule.head? = some (.host op) → f t = m.written) ∧
        ((nextEvent m.state).1 = .cycle →
          (t.status ≠ .ready → f t = m.written) ∧
          ((∀ i, decodeWord (wordAt m.state m.state.pc.toNat) ≠ .ok i) → f t = m.written) ∧
          (∀ i, decodeWord (wordAt m.state m.state.pc.toNat) = .ok i → t.status = .ready →
            ∀ c, (f t).has c = true ↔ m.written.has c = true ∨ c ∈ cellsWritten i m.state)))

/-- R40, R205: a cycle whose instruction reads a cell without a value is refused; one that reads none such runs, and gives
a value to the cells it writes and to no other, and to none where it faults. That an instruction reads every cell of its
row in R23 whatever its operands is the model's choice (log entry 14). It holds under both settings of
NEAR_MISS_POLICY. -/
def Obligations.UnwrittenReadsAreRefused : Prop :=
  ∀ (p : NearMissPolicy) (m : Tracked) (i : Instr) (rest : List Byte), Fetchable m.state →
    decodeBytes [m.state.mem.read m.state.pc.toNat, m.state.mem.read (m.state.pc.toNat + 1)] = .ok (i, rest) →
    ((∃ c ∈ cellsRead i, m.written.has c = false) → trackedStepUnder p m = .refused .unwrittenRead) ∧
    ((∀ c ∈ cellsRead i, m.written.has c = true) →
      ∃ m', trackedStepUnder p m = .next m' ∧ stepUnder p m.state = .next m'.state ∧
        (m'.state.status = .ready → ∀ c, m'.written.has c = true ↔
          m.written.has c = true ∨ c ∈ cellsWritten i m.state) ∧
        (m'.state.status ≠ .ready → m'.written = m.written))
end

