-- ==== Sys2Proof/Laws/Memory.lean ====
section
/-! SUPPORT. The laws of memory: read after write, and that every operation keeps the canonical form. -/

namespace Sys2Proof.Machine

theorem Memory.read_insert (m : Memory) (a b : Nat) (v : Byte) :
    (Memory.insert m a v).read b = if b = a then v else m.read b := by
  induction m with
  | nil => simp [Memory.insert, Memory.read]
  | cons c m ih =>
    obtain ⟨d, w⟩ := c
    simp only [Memory.insert]
    split
    · simp [Memory.read]
    · split
      · subst_vars
        simp only [Memory.read]
        split <;> simp_all
      · simp only [Memory.read, ih]
        split <;> split <;> simp_all

/-- The first address of a list in canonical form bounds the others from below. -/
theorem Memory.lt_of_wfAbove {m : Memory} {l : Nat} (h : Memory.wfAbove (some l) m = true) {a : Nat} {v : Byte}
    (hm : (a, v) ∈ m) : l < a := by
  induction m generalizing l with
  | nil => simp at hm
  | cons c m ih =>
    obtain ⟨d, w⟩ := c
    simp only [Memory.wfAbove, Bool.and_eq_true, decide_eq_true_eq] at h
    rcases List.mem_cons.mp hm with h' | h'
    · cases h'
      exact h.1.1.1
    · exact Nat.lt_trans h.1.1.1 (ih h.2 h')

theorem Memory.wfAbove_none_of_some {m : Memory} {l : Nat} (h : Memory.wfAbove (some l) m = true) :
    Memory.wfAbove none m = true := by
  cases m with
  | nil => rfl
  | cons c m =>
    obtain ⟨d, w⟩ := c
    simp only [Memory.wfAbove, Bool.and_eq_true] at h ⊢
    exact ⟨⟨⟨trivial, h.1.1.2⟩, h.1.2⟩, h.2⟩

theorem Memory.wfAbove_mono {m : Memory} {l l' : Nat} (hl : l' ≤ l) (h : Memory.wfAbove (some l) m = true) :
    Memory.wfAbove (some l') m = true := by
  cases m with
  | nil => rfl
  | cons c m =>
    obtain ⟨d, w⟩ := c
    simp only [Memory.wfAbove, Bool.and_eq_true, decide_eq_true_eq] at h ⊢
    exact ⟨⟨⟨by omega, h.1.1.2⟩, h.1.2⟩, h.2⟩

/-- An address that a canonical list does not reach reads as its content after Init. -/
theorem Memory.read_of_wfAbove {m : Memory} {l a : Nat} (h : Memory.wfAbove (some l) m = true) (ha : a ≤ l) :
    m.read a = initByte a := by
  induction m generalizing l with
  | nil => rfl
  | cons c m ih =>
    obtain ⟨d, w⟩ := c
    simp only [Memory.wfAbove, Bool.and_eq_true, decide_eq_true_eq] at h
    have hne : a ≠ d := by omega
    simp only [Memory.read, hne, if_false]
    exact ih h.2 (by omega)

theorem Memory.read_erase (m : Memory) (a b : Nat) :
    (Memory.erase m a).read b = if b = a then initByte b else m.read b := by
  induction m with
  | nil => simp [Memory.erase, Memory.read]
  | cons c m ih =>
    obtain ⟨d, w⟩ := c
    simp only [Memory.erase]
    split
    · subst_vars
      rw [ih]
      simp only [Memory.read]
      split <;> simp_all
    · simp only [Memory.read, ih]
      split <;> split <;> simp_all

/-- Read after write (R50, R59). -/
theorem Memory.read_write (m : Memory) (a b : Nat) (v : Byte) :
    (m.write a v).read b = if b = a then v else m.read b := by
  unfold Memory.write
  split
  · rw [Memory.read_erase]
    split
    · subst_vars
      simp_all
    · rfl
  · exact Memory.read_insert m a b v

theorem Memory.wfAbove_insert {m : Memory} {lo : Option Nat} (h : Memory.wfAbove lo m = true) {a : Nat} {v : Byte}
    (ha : a < Config.memSize) (hv : v ≠ initByte a) (hlo : ∀ l, lo = some l → l < a) :
    Memory.wfAbove lo (Memory.insert m a v) = true := by
  induction m generalizing lo with
  | nil => cases lo <;> simp_all [Memory.insert, Memory.wfAbove]
  | cons c m ih =>
    obtain ⟨d, w⟩ := c
    simp only [Memory.wfAbove, Bool.and_eq_true, decide_eq_true_eq] at h
    simp only [Memory.insert]
    split
    · next hlt => cases lo <;> simp_all [Memory.wfAbove]
    · split
      · next heq => subst heq; cases lo <;> simp_all [Memory.wfAbove]
      · next h1 h2 =>
        simp only [Memory.wfAbove, Bool.and_eq_true, decide_eq_true_eq]
        refine ⟨h.1, ih h.2 ?_⟩
        intro l hl
        cases hl
        omega

theorem Memory.wfAbove_erase {m : Memory} {lo : Option Nat} (h : Memory.wfAbove lo m = true) (a : Nat) :
    Memory.wfAbove lo (Memory.erase m a) = true := by
  induction m generalizing lo with
  | nil => rfl
  | cons c m ih =>
    obtain ⟨d, w⟩ := c
    simp only [Memory.wfAbove, Bool.and_eq_true, decide_eq_true_eq] at h
    simp only [Memory.erase]
    split
    · refine ih ?_
      cases lo with
      | none => exact Memory.wfAbove_none_of_some h.2
      | some l => exact Memory.wfAbove_mono (Nat.le_of_lt (by simpa using h.1.1.1)) h.2
    · simp only [Memory.wfAbove, Bool.and_eq_true, decide_eq_true_eq]
      exact ⟨h.1, ih h.2⟩

/-- A write to an address that exists keeps the canonical form. -/
theorem Memory.wf_write {m : Memory} (h : m.wf = true) {a : Nat} (v : Byte) (ha : a < Config.memSize) :
    (m.write a v).wf = true := by
  unfold Memory.write
  split
  · exact Memory.wfAbove_erase h a
  · next hv => exact Memory.wfAbove_insert h ha hv (by simp)

theorem wf_copyBytes {m : Memory} (h : m.wf = true) {a : Nat} {bs : List Byte}
    (ha : a + bs.length ≤ Config.memSize) : (copyBytes m a bs).wf = true := by
  induction bs generalizing m a with
  | nil => exact h
  | cons b bs ih =>
    simp only [List.length_cons] at ha
    exact ih (Memory.wf_write h b (by omega)) (by omega)

theorem wf_pokeByte {m : Memory} (h : m.wf = true) (a : Nat) (b : Byte) : (pokeByte m a b).wf = true := by
  unfold pokeByte
  split
  · next ha => exact Memory.wf_write h b ha
  · exact h

/-- The memory after Init lists nothing and is in canonical form. -/
theorem wf_reset : State.reset.mem.wf = true := rfl

end Sys2Proof.Machine
end

