-- ==== Sys2Proof/Laws/State.lean ====
section
/-! SUPPORT. What each update of the state does to each field, one lemma per field, by rfl. -/

namespace Sys2Proof.Machine

/-! ### setV -/

@[simp] theorem setV_idx (s : State) (r : Reg) (b : Byte) : (s.setV r b).idx = s.idx := rfl
@[simp] theorem setV_pc (s : State) (r : Reg) (b : Byte) : (s.setV r b).pc = s.pc := rfl
@[simp] theorem setV_sp (s : State) (r : Reg) (b : Byte) : (s.setV r b).sp = s.sp := rfl
@[simp] theorem setV_stack (s : State) (r : Reg) (b : Byte) : (s.setV r b).stack = s.stack := rfl
@[simp] theorem setV_dt (s : State) (r : Reg) (b : Byte) : (s.setV r b).dt = s.dt := rfl
@[simp] theorem setV_st (s : State) (r : Reg) (b : Byte) : (s.setV r b).st = s.st := rfl
@[simp] theorem setV_disp (s : State) (r : Reg) (b : Byte) : (s.setV r b).disp = s.disp := rfl
@[simp] theorem setV_key (s : State) (r : Reg) (b : Byte) : (s.setV r b).key = s.key := rfl
@[simp] theorem setV_mem (s : State) (r : Reg) (b : Byte) : (s.setV r b).mem = s.mem := rfl
@[simp] theorem setV_status (s : State) (r : Reg) (b : Byte) : (s.setV r b).status = s.status := rfl
@[simp] theorem setV_draws (s : State) (r : Reg) (b : Byte) : (s.setV r b).draws = s.draws := rfl
@[simp] theorem setV_schedule (s : State) (r : Reg) (b : Byte) : (s.setV r b).schedule = s.schedule := rfl

theorem getV_setV (s : State) (r q : Reg) (b : Byte) :
    (s.setV r b).getV q = if q = r then b else s.getV q := by
  by_cases h : q = r
  · simp [State.getV, State.setV, h]
  · simp [State.getV, State.setV, h, Fin.val_ne_of_ne (Ne.symm h)]

@[simp] theorem getV_setV_self (s : State) (r : Reg) (b : Byte) : (s.setV r b).getV r = b := by
  simp [getV_setV]

theorem getV_setV_ne (s : State) {r q : Reg} (b : Byte) (h : q ≠ r) : (s.setV r b).getV q = s.getV q := by
  simp [getV_setV, h]

/-! ### setFlagged -/

@[simp] theorem setFlagged_idx (s : State) (x : Reg) (f b : Byte) : (s.setFlagged x f b).idx = s.idx := rfl
@[simp] theorem setFlagged_pc (s : State) (x : Reg) (f b : Byte) : (s.setFlagged x f b).pc = s.pc := rfl
@[simp] theorem setFlagged_sp (s : State) (x : Reg) (f b : Byte) : (s.setFlagged x f b).sp = s.sp := rfl
@[simp] theorem setFlagged_stack (s : State) (x : Reg) (f b : Byte) : (s.setFlagged x f b).stack = s.stack := rfl
@[simp] theorem setFlagged_dt (s : State) (x : Reg) (f b : Byte) : (s.setFlagged x f b).dt = s.dt := rfl
@[simp] theorem setFlagged_st (s : State) (x : Reg) (f b : Byte) : (s.setFlagged x f b).st = s.st := rfl
@[simp] theorem setFlagged_disp (s : State) (x : Reg) (f b : Byte) : (s.setFlagged x f b).disp = s.disp := rfl
@[simp] theorem setFlagged_key (s : State) (x : Reg) (f b : Byte) : (s.setFlagged x f b).key = s.key := rfl
@[simp] theorem setFlagged_mem (s : State) (x : Reg) (f b : Byte) : (s.setFlagged x f b).mem = s.mem := rfl
@[simp] theorem setFlagged_status (s : State) (x : Reg) (f b : Byte) : (s.setFlagged x f b).status = s.status := rfl
@[simp] theorem setFlagged_draws (s : State) (x : Reg) (f b : Byte) : (s.setFlagged x f b).draws = s.draws := rfl
@[simp] theorem setFlagged_schedule (s : State) (x : Reg) (f b : Byte) :
    (s.setFlagged x f b).schedule = s.schedule := rfl

/-- With x = F the result stays in VF, the flag is lost (R22). -/
theorem getV_setFlagged (s : State) (x q : Reg) (f b : Byte) :
    (s.setFlagged x f b).getV q = if q = x then b else if q = Reg.vf then f else s.getV q := by
  simp [State.setFlagged, getV_setV]

/-! ### haltAt -/

@[simp] theorem haltAt_v (s : State) (a : Word) (e : Violation) : (s.haltAt a e).v = s.v := rfl
@[simp] theorem haltAt_getV (s : State) (a : Word) (e : Violation) (r : Reg) :
    (s.haltAt a e).getV r = s.getV r := rfl
@[simp] theorem haltAt_idx (s : State) (a : Word) (e : Violation) : (s.haltAt a e).idx = s.idx := rfl
@[simp] theorem haltAt_pc (s : State) (a : Word) (e : Violation) : (s.haltAt a e).pc = a := rfl
@[simp] theorem haltAt_sp (s : State) (a : Word) (e : Violation) : (s.haltAt a e).sp = s.sp := rfl
@[simp] theorem haltAt_stack (s : State) (a : Word) (e : Violation) : (s.haltAt a e).stack = s.stack := rfl
@[simp] theorem haltAt_dt (s : State) (a : Word) (e : Violation) : (s.haltAt a e).dt = s.dt := rfl
@[simp] theorem haltAt_st (s : State) (a : Word) (e : Violation) : (s.haltAt a e).st = s.st := rfl
@[simp] theorem haltAt_disp (s : State) (a : Word) (e : Violation) : (s.haltAt a e).disp = s.disp := rfl
@[simp] theorem haltAt_key (s : State) (a : Word) (e : Violation) : (s.haltAt a e).key = s.key := rfl
@[simp] theorem haltAt_mem (s : State) (a : Word) (e : Violation) : (s.haltAt a e).mem = s.mem := rfl
@[simp] theorem haltAt_status (s : State) (a : Word) (e : Violation) :
    (s.haltAt a e).status = .halted e.cause e.info := rfl
@[simp] theorem haltAt_draws (s : State) (a : Word) (e : Violation) : (s.haltAt a e).draws = s.draws := rfl
@[simp] theorem haltAt_schedule (s : State) (a : Word) (e : Violation) :
    (s.haltAt a e).schedule = s.schedule := rfl

/-! ### draw -/

@[simp] theorem draw_fst (s : State) : s.draw.1 = Config.randomByte s.draws := rfl
@[simp] theorem draw_snd (s : State) : s.draw.2 = { s with draws := s.draws + 1 } := rfl

/-! ### Fields that getV, slot and keyDown read -/

theorem getV_of_v_eq {s t : State} (h : t.v = s.v) (r : Reg) : t.getV r = s.getV r := by
  simp [State.getV, h]

theorem slot_of_stack_eq {s t : State} (h : t.stack = s.stack) (k : Fin 16) : t.slot k = s.slot k := by
  simp [State.slot, h]

theorem lowestKeyDown_of_key_eq {s t : State} (h : t.key = s.key) : lowestKeyDown t = lowestKeyDown s := by
  simp [lowestKeyDown, State.keyDown, h]

end Sys2Proof.Machine
end

