-- ==== Sys2Proof/Laws/Ops.lean ====
section
/-! SUPPORT. What each shared operation can do, said once: the memory and pc primitives, raising, the stack, the skips and
the fetch. -/

namespace Sys2Proof.Machine

/-! ### Raising -/

@[simp] theorem commit_ok (s t : State) : commit s (.ok t) = .next t := rfl

@[simp] theorem commit_error (s : State) (e : Violation) :
    commit s (.error e) = .next (s.haltAt s.instrAddr e) := rfl

/-- A handler always ends in a next state: its own, or the halted one of its violation (R11). -/
theorem commit_eq_next {s t : State} {r : Except Violation State} :
    commit s r = .next t ↔ r = .ok t ∨ ∃ e, r = .error e ∧ t = s.haltAt s.instrAddr e := by
  cases r with
  | ok u => simp [commit]
  | error e => simp [commit, takeViolation, eq_comm]

/-! ### Memory and pc primitives (R9, R10) -/

theorem memRead_ok {m : Memory} {a : Nat} (h : a < Config.memSize) : memRead m a = .ok (m.read a) := by
  simp [memRead, h]

theorem memRead_error {m : Memory} {a : Nat} (h : Config.memSize ≤ a) : memRead m a = .error ⟨.memRange, a⟩ := by
  simp [memRead, Nat.not_lt.mpr h]

theorem memWrite_ok {m : Memory} {a : Nat} (v : Byte) (h : a < Config.memSize) :
    memWrite m a v = .ok (m.write a v) := by
  simp [memWrite, h]

theorem memWrite_error {m : Memory} {a : Nat} (v : Byte) (h : Config.memSize ≤ a) :
    memWrite m a v = .error ⟨.memRange, a⟩ := by
  simp [memWrite, Nat.not_lt.mpr h]

theorem setPC_ok {s : State} {t : Nat} (h : t < Config.memSize) :
    setPC t s = .ok { s with pc := BitVec.ofNat 16 t } := by
  simp [setPC, h]

theorem setPC_error {s : State} {t : Nat} (h : Config.memSize ≤ t) : setPC t s = .error ⟨.pcRange, t⟩ := by
  simp [setPC, Nat.not_lt.mpr h]

/-- Reading `n` bytes from `a` gives them all when the last lies in memory, and else raises at the first address that
does not (R60, R147). -/
theorem loadBytes_eq (m : Memory) (a n : Nat) :
    loadBytes m a n =
      if n = 0 ∨ a + n ≤ Config.memSize then .ok ((List.range' a n).map m.read)
      else .error ⟨.memRange, max a Config.memSize⟩ := by
  induction n generalizing a with
  | zero => simp [loadBytes]
  | succ n ih =>
    by_cases ha : a < Config.memSize
    · simp only [loadBytes, memRead_ok ha, ih, bind, Except.bind]
      by_cases hn : n = 0 ∨ a + 1 + n ≤ Config.memSize
      · rw [if_pos hn, if_pos (by omega)]
        simp [List.range'_succ]
      · rw [if_neg hn, if_neg (by omega)]
        simp only [show max (a + 1) Config.memSize = max a Config.memSize by omega]
    · rw [if_neg (by omega)]
      simp only [loadBytes, memRead_error (Nat.not_lt.mp ha), bind, Except.bind]
      rw [Nat.max_eq_left (by omega)]

/-- Storing bytes from `a` on stores them all when the last lies in memory, and else raises at the first address that
does not (R60, R147). -/
theorem storeBytes_eq (m : Memory) (a : Nat) (bs : List Byte) :
    storeBytes m a bs =
      if bs.length = 0 ∨ a + bs.length ≤ Config.memSize then .ok (copyBytes m a bs)
      else .error ⟨.memRange, max a Config.memSize⟩ := by
  induction bs generalizing a m with
  | nil => simp [storeBytes, copyBytes]
  | cons b bs ih =>
    by_cases ha : a < Config.memSize
    · simp only [storeBytes, memWrite_ok b ha, ih, bind, Except.bind, copyBytes, List.length_cons]
      by_cases hn : bs.length = 0 ∨ a + 1 + bs.length ≤ Config.memSize
      · rw [if_pos hn, if_pos (by omega)]
      · rw [if_neg hn, if_neg (by omega)]
        simp only [show max (a + 1) Config.memSize = max a Config.memSize by omega]
    · rw [if_neg (by simp only [List.length_cons]; omega)]
      simp only [storeBytes, memWrite_error b (Nat.not_lt.mp ha), bind, Except.bind]
      rw [Nat.max_eq_left (by omega)]

/-- What the bytes copied from `a` on read as, and every other byte (R231). -/
theorem read_copyBytes (m : Memory) (a : Nat) (bs : List Byte) (k : Nat) :
    (copyBytes m a bs).read k =
      if h : a ≤ k ∧ k - a < bs.length then bs[k - a]'h.2 else m.read k := by
  induction bs generalizing a m with
  | nil => simp [copyBytes]
  | cons b bs ih =>
    simp only [copyBytes, ih, Memory.read_write, List.length_cons]
    by_cases hk : k = a
    · subst hk
      simp
    · by_cases h : a + 1 ≤ k ∧ k - (a + 1) < bs.length
      · rw [dif_pos h, dif_pos (by omega)]
        have e : k - a = (k - (a + 1)) + 1 := by omega
        simp [e]
      · rw [dif_neg h, dif_neg (by omega), if_neg hk]

/-- Registers written from number `r` on: register `j` gets byte `j - r`, and the others are kept. -/
theorem getElem_setRegs (v : Vector Byte 16) (r : Nat) (bs : List Byte) (j : Nat) (hj : j < 16) :
    (setRegs v r bs)[j] = if h : r ≤ j ∧ j - r < bs.length then bs[j - r]'h.2 else v[j] := by
  induction bs generalizing v r with
  | nil => simp [setRegs]
  | cons b bs ih =>
    simp only [setRegs, ih, List.length_cons]
    by_cases hk : j = r
    · subst hk
      simp
    · by_cases h : r + 1 ≤ j ∧ j - (r + 1) < bs.length
      · rw [dif_pos h, dif_pos (by omega)]
        have e : j - r = (j - (r + 1)) + 1 := by omega
        simp [e]
      · rw [dif_neg h, dif_neg (by omega)]
        simp [Ne.symm hk]

/-! ### The stack -/

/-- A push with room: the slot at sp, and sp one more (R100). -/
theorem pushAddr_ok (a : Word) {s : State} (h : s.sp.val < 16) :
    pushAddr a s = .ok { s with stack := s.stack.set s.sp.val a, sp := ⟨s.sp.val + 1, by omega⟩ } := by
  simp [pushAddr, h]

/-- A push on a full stack (R29). -/
theorem pushAddr_error (a : Word) {s : State} (h : ¬ s.sp.val < 16) :
    pushAddr a s = .error ⟨.stackOverflow, s.instrAddr.toNat⟩ := by
  simp [pushAddr, h]

/-- A pop with something on the stack (R102). -/
theorem popAddr_ok {s : State} (h : ¬ s.sp.val = 0) :
    popAddr s = .ok (s.slot ⟨s.sp.val - 1, by omega⟩, { s with sp := ⟨s.sp.val - 1, by omega⟩ }) := by
  unfold popAddr
  rw [dif_neg h]

/-- A pop on an empty stack (R29). -/
theorem popAddr_error {s : State} (h : s.sp.val = 0) :
    popAddr s = .error ⟨.stackUnderflow, s.instrAddr.toNat⟩ := by
  unfold popAddr
  rw [dif_pos h]

/-! ### Skips -/

/-- A skip moves pc by 2, does nothing, or raises PC_RANGE (R104). -/
theorem skipIf_eq (c : Bool) (s : State) :
    skipIf c s =
      if c = false then .next s
      else if s.pc.toNat + 2 < Config.memSize then .next { s with pc := BitVec.ofNat 16 (s.pc.toNat + 2) }
      else .next (s.haltAt s.instrAddr ⟨.pcRange, s.pc.toNat + 2⟩) := by
  cases c with
  | false => rfl
  | true =>
    by_cases h : s.pc.toNat + 2 < Config.memSize
    · simp [skipIf, setPC_ok h, h]
    · simp [skipIf, setPC_error (Nat.not_lt.mp h), h]

/-! ### The fetch -/

/-- The fetch below 0xFFE reads the opcode at pc and advances pc (R70). -/
theorem fetch_ok {s : State} (h : s.pc.toNat + 2 < Config.memSize) :
    fetch s = .ok (opcodeOfBytes (s.mem.read s.pc.toNat) (s.mem.read (s.pc.toNat + 1)),
      { s with pc := BitVec.ofNat 16 (s.pc.toNat + 2) }) := by
  simp [fetch, memRead_ok (show s.pc.toNat < Config.memSize by omega),
    memRead_ok (show s.pc.toNat + 1 < Config.memSize by omega), setPC_ok h, bind, Except.bind]

/-- At 0xFFE the fetch raises PC_RANGE (R202). -/
theorem fetch_pcRange {s : State} (h : s.pc.toNat + 2 = Config.memSize) :
    fetch s = .error ⟨.pcRange, s.pc.toNat + 2⟩ := by
  simp [fetch, memRead_ok (show s.pc.toNat < Config.memSize by omega),
    memRead_ok (show s.pc.toNat + 1 < Config.memSize by omega),
    setPC_error (show Config.memSize ≤ s.pc.toNat + 2 by omega), bind, Except.bind]

/-- At 0xFFF the second byte lies outside memory (R54, R202). -/
theorem fetch_memRange {s : State} (h : s.pc.toNat + 1 = Config.memSize) :
    fetch s = .error ⟨.memRange, s.pc.toNat + 1⟩ := by
  simp [fetch, memRead_ok (show s.pc.toNat < Config.memSize by omega),
    memRead_error (show Config.memSize ≤ s.pc.toNat + 1 by omega), bind, Except.bind]

/-- A fetch that succeeds advances pc and changes nothing else; it does so exactly when `pc + 2` is below 4096. -/
theorem fetch_eq_ok {s t : State} {op : Word} :
    fetch s = .ok (op, t) ↔
      s.pc.toNat + 2 < Config.memSize ∧
        op = opcodeOfBytes (s.mem.read s.pc.toNat) (s.mem.read (s.pc.toNat + 1)) ∧
        t = { s with pc := BitVec.ofNat 16 (s.pc.toNat + 2) } := by
  by_cases h : s.pc.toNat + 2 < Config.memSize
  · simp [fetch_ok h, h, eq_comm]
  · simp only [h, false_and, iff_false]
    by_cases h1 : s.pc.toNat < Config.memSize
    · by_cases h2 : s.pc.toNat + 1 < Config.memSize
      · simp [fetch_pcRange (show s.pc.toNat + 2 = Config.memSize by omega)]
      · simp [fetch_memRange (show s.pc.toNat + 1 = Config.memSize by omega)]
    · simp [fetch, memRead_error (Nat.not_lt.mp h1), bind, Except.bind]

end Sys2Proof.Machine
end

