-- ==== Sys2Proof/Laws/Drawing.lean ====
section
/-! SUPPORT. What the sprite blitter does, pixel by pixel (spec/43_display.md R161 to R163). -/

namespace Sys2Proof.Machine

/-- A flip changes its own pixel and no other on the display. -/
theorem pixel_flipPixel (d : Display) {px py qx qy : Nat} (hx : px < 64) (hy : py < 32) :
    pixel (flipPixel d px py) qx qy = (pixel d qx qy ^^ decide (qx = px ∧ qy = py)) := by
  unfold pixel flipPixel
  rw [dif_pos hy]
  by_cases hq : qy < 32
  · rw [dif_pos hq, dif_pos hq]
    by_cases he : qy = py
    · subst he
      simp [BitVec.getLsbD_xor, BitVec.getLsbD_twoPow, hx, eq_comm]
    · simp [Ne.symm he, he]
  · have : qy ≠ py := by omega
    simp [hq, this]

@[simp] theorem pixel_blankDisplay (px py : Nat) : pixel blankDisplay px py = false := by
  simp [pixel, blankDisplay]

/-- What drawing part of a sprite does: `cover` says which pixels it toggles. They lie on the display; each of them is
flipped, no other pixel changes, and a lit one among them sets the collision (R162). -/
def Draws (cover : Nat → Nat → Bool) (k k' : Canvas) : Prop :=
  (∀ px py, pixel k'.disp px py = (pixel k.disp px py ^^ cover px py)) ∧
    (k'.hit = true ↔ k.hit = true ∨ ∃ px py, cover px py = true ∧ pixel k.disp px py = true)

theorem draws_nothing (k : Canvas) : Draws (fun _ _ => false) k k := by
  simp [Draws]

/-- Two draws with no pixel in common make one draw. -/
theorem Draws.trans {c₁ c₂ : Nat → Nat → Bool} {k₁ k₂ k₃ : Canvas} (h₁ : Draws c₁ k₁ k₂) (h₂ : Draws c₂ k₂ k₃)
    (apart : ∀ px py, c₁ px py = true → c₂ px py = false) :
    Draws (fun px py => c₁ px py || c₂ px py) k₁ k₃ := by
  refine ⟨fun px py => ?_, ?_⟩
  · have := apart px py
    simp only [h₂.1, h₁.1]
    cases h : c₁ px py <;> simp_all
  · rw [h₂.2, h₁.2]
    constructor
    · rintro ((h | ⟨px, py, hc, hp⟩) | ⟨px, py, hc, hp⟩)
      · exact .inl h
      · exact .inr ⟨px, py, by simp [hc], hp⟩
      · refine .inr ⟨px, py, by simp [hc], ?_⟩
        rw [h₁.1] at hp
        have := apart px py
        cases h : c₁ px py <;> simp_all
    · rintro (h | ⟨px, py, hc, hp⟩)
      · exact .inl (.inl h)
      · cases h : c₁ px py with
        | true => exact .inl (.inr ⟨px, py, h, hp⟩)
        | false =>
          refine .inr ⟨px, py, by simpa [h] using hc, ?_⟩
          simp [h₁.1, h, hp]

theorem Draws.congr {c c' : Nat → Nat → Bool} {k k' : Canvas} (h : Draws c k k') (e : ∀ px py, c px py = c' px py) :
    Draws c' k k' := by
  have : c = c' := funext fun px => funext fun py => e px py
  exact this ▸ h

/-- One pixel: toggled on the display, dropped off it (R163). -/
theorem draws_drawPixel (px py : Nat) (k : Canvas) :
    Draws (fun qx qy => decide (px < 64 ∧ py < 32 ∧ qx = px ∧ qy = py)) k (drawPixel px py k) := by
  unfold drawPixel
  by_cases h : px < 64 ∧ py < 32
  · rw [if_pos h]
    refine ⟨fun qx qy => ?_, ?_⟩
    · simp [pixel_flipPixel _ h.1 h.2, h.1, h.2]
    · simp [h.1, h.2]
  · rw [if_neg h]
    refine (draws_nothing k).congr fun qx qy => ?_
    exact (decide_eq_false (by tauto)).symm

/-- A run of a sprite row's columns (R161). -/
theorem draws_drawCols (b : Byte) (x0 py c fuel : Nat) (k : Canvas) :
    Draws (fun qx qy => decide (qx < 64 ∧ py < 32 ∧ qy = py ∧ x0 + c ≤ qx ∧ qx < x0 + c + fuel) &&
      spriteBit b (qx - x0)) k (drawCols b x0 py c fuel k) := by
  induction fuel generalizing c k with
  | zero => exact (draws_nothing k).congr fun qx qy => by simp
  | succ fuel ih =>
    simp only [drawCols]
    have first : Draws (fun qx qy => spriteBit b c && decide (x0 + c < 64 ∧ py < 32 ∧ qx = x0 + c ∧ qy = py)) k
        (if spriteBit b c then drawPixel (x0 + c) py k else k) := by
      cases h : spriteBit b c with
      | true => exact (draws_drawPixel (x0 + c) py k).congr fun qx qy => by simp
      | false => exact (draws_nothing k).congr fun qx qy => by simp
    refine (first.trans (ih (c + 1) _) ?_).congr fun qx qy => ?_
    · intro qx qy h
      simp only [Bool.and_eq_true, decide_eq_true_eq] at h
      simp only [Bool.and_eq_false_iff, decide_eq_false_iff_not]
      omega
    · by_cases hq : qx = x0 + c
      · subst hq
        rw [Nat.add_sub_cancel_left]
        cases spriteBit b c <;> simp
      · rw [Bool.eq_iff_iff]
        simp only [Bool.or_eq_true, Bool.and_eq_true, decide_eq_true_eq]
        constructor
        · rintro (⟨-, h⟩ | ⟨h, hb⟩)
          · omega
          · exact ⟨by omega, hb⟩
        · rintro ⟨h, hb⟩
          exact .inr ⟨by omega, hb⟩

/-- A sprite: the pixel (qx, qy) is toggled when it lies on the display, within the 8 columns and the rows of the
sprite, and its bit is 1 (R161, R163). -/
theorem draws_drawRows (x0 py : Nat) (rows : List Byte) (k : Canvas) :
    Draws (fun qx qy => decide (qx < 64 ∧ qy < 32 ∧ x0 ≤ qx ∧ qx < x0 + 8 ∧ py ≤ qy ∧ qy < py + rows.length) &&
      spriteBit (rows.getD (qy - py) 0) (qx - x0)) k (drawRows x0 py rows k) := by
  induction rows generalizing py k with
  | nil => exact (draws_nothing k).congr fun qx qy => by simp
  | cons b bs ih =>
    simp only [drawRows]
    refine ((draws_drawCols b x0 py 0 8 k).trans (ih (py + 1) _) ?_).congr fun qx qy => ?_
    · intro qx qy h
      simp only [Bool.and_eq_true, decide_eq_true_eq] at h
      simp only [Bool.and_eq_false_iff, decide_eq_false_iff_not]
      omega
    · rw [Bool.eq_iff_iff]
      simp only [Bool.or_eq_true, Bool.and_eq_true, decide_eq_true_eq, List.length_cons]
      by_cases hq : qy = py
      · subst hq
        simp only [Nat.sub_self, List.getD_cons_zero]
        constructor
        · rintro (⟨h, hb⟩ | ⟨h, -⟩)
          · exact ⟨by omega, hb⟩
          · omega
        · rintro ⟨h, hb⟩
          exact .inl ⟨⟨h.1, h.2.1, trivial, by omega, by omega⟩, hb⟩
      · constructor
        · rintro (⟨h, -⟩ | ⟨h, hb⟩)
          · omega
          · refine ⟨by omega, ?_⟩
            rw [show qy - py = (qy - (py + 1)) + 1 by omega, List.getD_cons_succ]
            exact hb
        · rintro ⟨h, hb⟩
          refine .inr ⟨by omega, ?_⟩
          rw [show qy - py = (qy - (py + 1)) + 1 by omega, List.getD_cons_succ] at hb
          exact hb

end Sys2Proof.Machine
end

