-- ==== Sys2Proof/Laws/Encoding.lean ====
section
/-! SUPPORT. What each field of an assembled word reads as (spec/30_encoding.md R72, R73): one lemma per field and
format. -/

namespace Sys2Proof

@[simp] theorem toNat_regBits (r : Reg) : (regBits r).toNat = r.val := by
  simp [regBits]

theorem toNat_xyn (f x y n : BitVec 4) :
    (f ++ x ++ y ++ n).toNat = f.toNat * 4096 + x.toNat * 256 + y.toNat * 16 + n.toNat := by
  have := x.isLt; have := y.isLt; have := n.isLt
  simp only [BitVec.toNat_append, Nat.shiftLeft_eq]
  rw [← Nat.shiftLeft_eq, ← Nat.shiftLeft_eq, ← Nat.shiftLeft_eq,
    ← Nat.shiftLeft_add_eq_or_of_lt (by omega), ← Nat.shiftLeft_add_eq_or_of_lt (by omega),
    ← Nat.shiftLeft_add_eq_or_of_lt (by omega)]
  simp only [Nat.shiftLeft_eq]
  omega

theorem toNat_xkk (f x : BitVec 4) (kk : Byte) :
    (f ++ x ++ kk).toNat = f.toNat * 4096 + x.toNat * 256 + kk.toNat := by
  have := x.isLt; have := kk.isLt
  simp only [BitVec.toNat_append]
  rw [← Nat.shiftLeft_add_eq_or_of_lt (by omega), ← Nat.shiftLeft_add_eq_or_of_lt (by omega)]
  simp only [Nat.shiftLeft_eq]
  omega

theorem toNat_nnn (f : BitVec 4) (nnn : Addr) : (f ++ nnn).toNat = f.toNat * 4096 + nnn.toNat := by
  have := nnn.isLt
  simp only [BitVec.toNat_append]
  rw [← Nat.shiftLeft_add_eq_or_of_lt (by omega)]
  simp only [Nat.shiftLeft_eq]

/-! ### The fields of any word, by number -/

theorem toNat_family (op : Word) : (Field.family op).toNat = op.toNat / 4096 := by
  have := op.isLt
  simp [Field.family, BitVec.extractLsb'_toNat, Nat.shiftRight_eq_div_pow]
  omega

theorem val_fieldX (op : Word) : (Field.x op).val = op.toNat / 256 % 16 := by
  simp [Field.x, BitVec.extractLsb'_toNat, Nat.shiftRight_eq_div_pow]

theorem val_fieldY (op : Word) : (Field.y op).val = op.toNat / 16 % 16 := by
  simp [Field.y, BitVec.extractLsb'_toNat, Nat.shiftRight_eq_div_pow]

theorem toNat_fieldKk (op : Word) : (Field.kk op).toNat = op.toNat % 256 := by
  simp [Field.kk, BitVec.extractLsb'_toNat]

theorem toNat_fieldNnn (op : Word) : (Field.nnn op).toNat = op.toNat % 4096 := by
  simp [Field.nnn, BitVec.extractLsb'_toNat]

theorem toNat_fieldN (op : Word) : (Field.n op).toNat = op.toNat % 16 := by
  simp [Field.n, BitVec.extractLsb'_toNat]

/-! ### Format NNN -/

@[simp] theorem family_nnn (f : BitVec 4) (nnn : Addr) : Field.family (f ++ nnn) = f := by
  apply BitVec.eq_of_toNat_eq
  have := nnn.isLt
  rw [toNat_family, toNat_nnn]
  omega

@[simp] theorem nnn_nnn (f : BitVec 4) (nnn : Addr) : Field.nnn (f ++ nnn) = nnn := by
  apply BitVec.eq_of_toNat_eq
  have := nnn.isLt
  rw [toNat_fieldNnn, toNat_nnn]
  omega

/-! ### Formats XKK and XSUB -/

@[simp] theorem family_xkk (f x : BitVec 4) (kk : Byte) : Field.family (f ++ x ++ kk) = f := by
  apply BitVec.eq_of_toNat_eq
  have := x.isLt; have := kk.isLt
  rw [toNat_family, toNat_xkk]
  omega

@[simp] theorem x_xkk (f : BitVec 4) (x : Reg) (kk : Byte) : Field.x (f ++ regBits x ++ kk) = x := by
  apply Fin.ext
  have := x.isLt; have := kk.isLt
  rw [val_fieldX, toNat_xkk, toNat_regBits]
  omega

@[simp] theorem kk_xkk (f x : BitVec 4) (kk : Byte) : Field.kk (f ++ x ++ kk) = kk := by
  apply BitVec.eq_of_toNat_eq
  have := kk.isLt
  rw [toNat_fieldKk, toNat_xkk]
  omega

/-! ### Format XYN -/

@[simp] theorem family_xyn (f x y n : BitVec 4) : Field.family (f ++ x ++ y ++ n) = f := by
  apply BitVec.eq_of_toNat_eq
  have := x.isLt; have := y.isLt; have := n.isLt
  rw [toNat_family, toNat_xyn]
  omega

@[simp] theorem x_xyn (f : BitVec 4) (x : Reg) (y n : BitVec 4) : Field.x (f ++ regBits x ++ y ++ n) = x := by
  apply Fin.ext
  have := x.isLt; have := y.isLt; have := n.isLt
  rw [val_fieldX, toNat_xyn, toNat_regBits]
  omega

@[simp] theorem y_xyn (f x : BitVec 4) (y : Reg) (n : BitVec 4) : Field.y (f ++ x ++ regBits y ++ n) = y := by
  apply Fin.ext
  have := y.isLt; have := n.isLt
  rw [val_fieldY, toNat_xyn, toNat_regBits]
  omega

@[simp] theorem n_xyn (f x y n : BitVec 4) : Field.n (f ++ x ++ y ++ n) = n := by
  apply BitVec.eq_of_toNat_eq
  have := n.isLt
  rw [toNat_fieldN, toNat_xyn]
  omega

/-! ### Every word in each format -/

theorem eq_xyn (op : Word) :
    op = Field.family op ++ regBits (Field.x op) ++ regBits (Field.y op) ++ Field.n op := by
  apply BitVec.eq_of_toNat_eq
  rw [toNat_xyn, toNat_regBits, toNat_regBits, toNat_family, val_fieldX, val_fieldY, toNat_fieldN]
  omega

theorem eq_xkk (op : Word) : op = Field.family op ++ regBits (Field.x op) ++ Field.kk op := by
  apply BitVec.eq_of_toNat_eq
  rw [toNat_xkk, toNat_regBits, toNat_family, val_fieldX, toNat_fieldKk]
  omega

theorem eq_nnn (op : Word) : op = Field.family op ++ Field.nnn op := by
  apply BitVec.eq_of_toNat_eq
  rw [toNat_nnn, toNat_family, toNat_fieldNnn]
  omega

/-- A rejected word is rejected: it gives no instruction (R77). -/
theorem reject_ne_ok (op : Word) (i : Instr) : reject op ≠ .ok i := by
  unfold reject
  split <;> simp

/-- The two bytes of an opcode make it again (R52). -/
@[simp] theorem opcodeOfBytes_bytesOfOpcode (op : Word) :
    opcodeOfBytes (bytesOfOpcode op).1 (bytesOfOpcode op).2 = op := by
  apply BitVec.eq_of_toNat_eq
  have := op.isLt
  simp only [opcodeOfBytes, bytesOfOpcode, BitVec.toNat_append]
  rw [← Nat.shiftLeft_add_eq_or_of_lt (BitVec.isLt _)]
  simp [BitVec.extractLsb'_toNat, Nat.shiftRight_eq_div_pow, Nat.shiftLeft_eq]
  omega

/-- Two bytes decode as the opcode they make. -/
theorem decodeBytes_cons_cons (hi lo : Byte) (rest : List Byte) :
    decodeBytes (hi :: lo :: rest) =
      match decodeWord (opcodeOfBytes hi lo) with
      | .ok i => .ok (i, rest)
      | .error e => .error e := rfl

theorem decodeBytes_eq_ok {hi lo : Byte} {rest rest' : List Byte} {i : Instr} :
    decodeBytes (hi :: lo :: rest) = .ok (i, rest') ↔ decodeWord (opcodeOfBytes hi lo) = .ok i ∧ rest = rest' := by
  rw [decodeBytes_cons_cons]
  cases decodeWord (opcodeOfBytes hi lo) <;> simp

end Sys2Proof
end

