-- ==== Sys2Proof/Laws/Exec.lean ====
section
/-! SUPPORT. What the handlers over memory and the display answer, and what each host operation leaves, said once. -/

namespace Sys2Proof.Machine

/-! ### Handlers that end through `commit` -/

/-- A handler that stores bytes: all of them, or the violation of the first address outside memory (R143, R144). -/
theorem commit_store (s : State) (bs : List Byte) :
    commit s (do
      let m ← storeBytes s.mem s.indexBase bs
      .ok { s with mem := m }) =
      if bs.length = 0 ∨ s.indexBase + bs.length ≤ Config.memSize then
        .next { s with mem := copyBytes s.mem s.indexBase bs }
      else .next (s.haltAt s.instrAddr ⟨.memRange, max s.indexBase Config.memSize⟩) := by
  rw [storeBytes_eq]
  split <;> rfl

/-- A handler that loads bytes first: it goes on with all of them, or raises the violation of the first address outside
memory (R145, R161). -/
theorem commit_load (s : State) (n : Nat) (k : List Byte → State) :
    commit s (do
      let bs ← loadBytes s.mem s.indexBase n
      .ok (k bs)) =
      if n = 0 ∨ s.indexBase + n ≤ Config.memSize then
        .next (k ((List.range' s.indexBase n).map s.mem.read))
      else .next (s.haltAt s.instrAddr ⟨.memRange, max s.indexBase Config.memSize⟩) := by
  rw [loadBytes_eq]
  split <;> rfl

theorem execLdB_eq (x : Reg) (s : State) :
    execLdB x s =
      if s.indexBase + 3 ≤ Config.memSize then
        .next { s with mem := copyBytes s.mem s.indexBase (bcdDigits (s.getV x)) }
      else .next (s.haltAt s.instrAddr ⟨.memRange, max s.indexBase Config.memSize⟩) := by
  have h := commit_store s (bcdDigits (s.getV x))
  simpa [execLdB, bcdDigits] using h

theorem length_regsUpTo (s : State) (x : Reg) : (s.regsUpTo x).length = x.val + 1 := by
  simp [State.regsUpTo]

theorem execStRegs_eq (x : Reg) (s : State) :
    execStRegs x s =
      if s.indexBase + (x.val + 1) ≤ Config.memSize then
        .next { s with mem := copyBytes s.mem s.indexBase (s.regsUpTo x) }
      else .next (s.haltAt s.instrAddr ⟨.memRange, max s.indexBase Config.memSize⟩) := by
  have h := commit_store s (s.regsUpTo x)
  simpa [execStRegs, length_regsUpTo] using h

theorem execLdRegs_eq (x : Reg) (s : State) :
    execLdRegs x s =
      if s.indexBase + (x.val + 1) ≤ Config.memSize then
        .next { s with v := setRegs s.v 0 ((List.range' s.indexBase (x.val + 1)).map s.mem.read) }
      else .next (s.haltAt s.instrAddr ⟨.memRange, max s.indexBase Config.memSize⟩) := by
  have h := commit_load s (x.val + 1) fun bs => { s with v := setRegs s.v 0 bs }
  simpa [execLdRegs] using h

/-- The canvas a sprite of `n` rows at I leaves, drawn at V[x], V[y] (R161). -/
def drawn (s : State) (x y : Reg) (n : Nat) : Canvas :=
  drawRows (s.originX x) (s.originY y) ((List.range' s.indexBase n).map s.mem.read) ⟨s.disp, false⟩

theorem execDrw_eq (x y : Reg) (n : Nat) (s : State) :
    execDrw x y n s =
      if n = 0 ∨ s.indexBase + n ≤ Config.memSize then
        .next { s.setV Reg.vf (collisionFlag (drawn s x y n).hit) with disp := (drawn s x y n).disp }
      else .next (s.haltAt s.instrAddr ⟨.memRange, max s.indexBase Config.memSize⟩) :=
  commit_load s n fun rows =>
    { s.setV Reg.vf (collisionFlag (drawRows (s.originX x) (s.originY y) rows ⟨s.disp, false⟩).hit) with
      disp := (drawRows (s.originX x) (s.originY y) rows ⟨s.disp, false⟩).disp }

/-- Fx0A: the wait rewinds pc alone, else V[x] is the lowest key (R182). -/
theorem execLdK_cases (x : Reg) (s : State) :
    (lowestKeyDown s = none ∧ execLdK x s = .next { s with pc := s.instrAddr }) ∨
      ∃ k, lowestKeyDown s = some k ∧ execLdK x s = .next (s.setV x (BitVec.ofNat 8 k.val)) := by
  unfold execLdK
  cases h : lowestKeyDown s with
  | none => exact .inl ⟨rfl, rfl⟩
  | some k => exact .inr ⟨k, rfl, rfl⟩

/-- The lowest key is down and no lower one is (R11). -/
theorem lowestKeyDown_eq_some {s : State} {k : Fin 16} (h : lowestKeyDown s = some k) :
    s.keyDown k = true ∧ ∀ j : Fin 16, j < k → s.keyDown j = false := by
  rw [lowestKeyDown, List.find?_eq_some_iff_getElem] at h
  obtain ⟨hk, n, hn, he, hlt⟩ := h
  refine ⟨hk, fun j hj => ?_⟩
  have hn' : n = k.val := by
    have := congrArg Fin.val he
    simpa using this
  have hj' : j.val < n := by omega
  simpa using hlt j.val hj'

theorem lowestKeyDown_eq_none {s : State} : lowestKeyDown s = none ↔ ∀ k : Fin 16, s.keyDown k = false := by
  simp [lowestKeyDown, List.find?_eq_none]

/-! ### Calls, jumps and returns -/

theorem targetOf_lt (nnn : Addr) : targetOf nnn < Config.memSize := nnn.isLt

/-- 1nnn never raises (R101). -/
theorem execJp_eq (nnn : Addr) (s : State) :
    execJp nnn s = .next { s with pc := BitVec.ofNat 16 nnn.toNat } := by
  rw [execJp, setPC_ok (targetOf_lt nnn), commit_ok, targetOf]

/-- Bnnn goes to the exact sum or raises PC_RANGE (R103). -/
theorem execJpV0_eq (nnn : Addr) (s : State) :
    execJpV0 nnn s =
      if nnn.toNat + (s.getV 0).toNat < Config.memSize then
        .next { s with pc := BitVec.ofNat 16 (nnn.toNat + (s.getV 0).toNat) }
      else .next (s.haltAt s.instrAddr ⟨.pcRange, nnn.toNat + (s.getV 0).toNat⟩) := by
  unfold execJpV0 setPC targetOf
  split <;> rfl

/-- 2nnn pushes and jumps, or raises STACK_OVERFLOW (R100). -/
theorem execCall_eq (nnn : Addr) (s : State) :
    execCall nnn s =
      if h : s.sp.val < 16 then
        .next { s with
          pc := BitVec.ofNat 16 nnn.toNat, sp := ⟨s.sp.val + 1, by omega⟩, stack := s.stack.set s.sp.val s.pc }
      else .next (s.haltAt s.instrAddr ⟨.stackOverflow, s.instrAddr.toNat⟩) := by
  unfold execCall
  split
  · next hroom =>
    simp only [pushAddr_ok s.pc hroom, bind, Except.bind, setPC_ok (targetOf_lt nnn)]
    rfl
  · next h => simp [pushAddr_error s.pc h, bind, Except.bind]

/-- 00EE pops and goes to the address, or raises STACK_UNDERFLOW; a slot that holds no pc would raise PC_RANGE, which
the invariant of R41 rules out (R102). -/
theorem execRet_eq (s : State) :
    execRet s =
      if _h : s.sp.val = 0 then .next (s.haltAt s.instrAddr ⟨.stackUnderflow, s.instrAddr.toNat⟩)
      else if (s.slot ⟨s.sp.val - 1, by omega⟩).toNat < Config.memSize then
        .next { s with pc := s.slot ⟨s.sp.val - 1, by omega⟩, sp := ⟨s.sp.val - 1, by omega⟩ }
      else .next (s.haltAt s.instrAddr ⟨.pcRange, (s.slot ⟨s.sp.val - 1, by omega⟩).toNat⟩) := by
  unfold execRet
  split
  · next h => simp [popAddr_error h, bind, Except.bind]
  · next h =>
    simp only [popAddr_ok h, bind, Except.bind]
    split
    · next hlt => simp [setPC_ok hlt]
    · next hge => simp [setPC_error (Nat.not_lt.mp hge)]

/-- Everything an instruction can do: it ends in a state with the same status, keypad and schedule, or it raises and
commits nothing (R11, R32, R205). -/
theorem exec_cases (i : Instr) (s : State) :
    (∃ t, exec i s = .next t ∧ t.status = s.status ∧ t.key = s.key ∧ t.schedule = s.schedule) ∨
      ∃ e, exec i s = .next (s.haltAt s.instrAddr e) := by
  have skip (c : Bool) : (∃ t, skipIf c s = .next t ∧ t.status = s.status ∧ t.key = s.key ∧ t.schedule = s.schedule) ∨
      ∃ e, skipIf c s = .next (s.haltAt s.instrAddr e) := by
    rw [skipIf_eq]
    split
    · exact .inl ⟨_, rfl, rfl, rfl, rfl⟩
    · split
      · exact .inl ⟨_, rfl, rfl, rfl, rfl⟩
      · exact .inr ⟨_, rfl⟩
  cases i <;> simp only [exec]
  case seImm x kk => exact skip _
  case sneImm x kk => exact skip _
  case seReg x y => exact skip _
  case sneReg x y => exact skip _
  case skp x => exact skip _
  case sknp x => exact skip _
  case jp nnn => exact .inl ⟨_, execJp_eq nnn s, rfl, rfl, rfl⟩
  case jpV0 nnn => rw [execJpV0_eq]; split; exacts [.inl ⟨_, rfl, rfl, rfl, rfl⟩, .inr ⟨_, rfl⟩]
  case call nnn => rw [execCall_eq]; split; exacts [.inl ⟨_, rfl, rfl, rfl, rfl⟩, .inr ⟨_, rfl⟩]
  case ret =>
    rw [execRet_eq]
    split
    · exact .inr ⟨_, rfl⟩
    · split
      exacts [.inl ⟨_, rfl, rfl, rfl, rfl⟩, .inr ⟨_, rfl⟩]
  case ldB x => rw [execLdB_eq]; split; exacts [.inl ⟨_, rfl, rfl, rfl, rfl⟩, .inr ⟨_, rfl⟩]
  case stRegs x => rw [execStRegs_eq]; split; exacts [.inl ⟨_, rfl, rfl, rfl, rfl⟩, .inr ⟨_, rfl⟩]
  case ldRegs x => rw [execLdRegs_eq]; split; exacts [.inl ⟨_, rfl, rfl, rfl, rfl⟩, .inr ⟨_, rfl⟩]
  case drw x y n => rw [execDrw_eq]; split; exacts [.inl ⟨_, rfl, rfl, rfl, rfl⟩, .inr ⟨_, rfl⟩]
  case ldK x =>
    rcases execLdK_cases x s with ⟨-, h⟩ | ⟨k, -, h⟩ <;> exact .inl ⟨_, h, rfl, rfl, rfl⟩
  all_goals exact .inl ⟨_, rfl, rfl, rfl, rfl⟩

/-! ### Host operations -/

@[simp] theorem tick_dt (s : State) : (tick s).dt = countDown s.dt := rfl
@[simp] theorem tick_st (s : State) : (tick s).st = countDown s.st := rfl
@[simp] theorem setKeypad_key (k : Keys) (s : State) : (setKeypad k s).key = k := rfl

/-- Everything LoadRom can do (R231). -/
theorem loadRom_cases (bytes : List Byte) (s : State) :
    (s.status = .created ∧ bytes.length > Config.romMax ∧
        loadRom bytes s = .next { s with status := .loadFailed bytes.length }) ∨
      (s.status = .created ∧ bytes.length ≤ Config.romMax ∧
        loadRom bytes s = .next { s with mem := copyBytes s.mem Config.entry bytes, status := .ready }) ∨
      (s.status ≠ .created ∧ loadRom bytes s = .refused .loadRomNotAdmitted) := by
  unfold loadRom
  cases hs : s.status with
  | created =>
    by_cases h : bytes.length > Config.romMax
    · exact .inl ⟨rfl, h, by simp [h]⟩
    · exact .inr (.inl ⟨rfl, Nat.not_lt.mp h, by simp [h]⟩)
  | ready => exact .inr (.inr ⟨by simp, rfl⟩)
  | loadFailed n => exact .inr (.inr ⟨by simp, rfl⟩)
  | halted c n => exact .inr (.inr ⟨by simp, rfl⟩)

/-! ### The font -/

/-- FONT_BASE + 80 <= ENTRY, whatever FONT_BASE is (R6). -/
theorem fontBase_add_le : fontBase + 80 ≤ Config.entry := by
  have := Config.fontBase.isLt
  unfold fontBase Config.entry
  omega

/-- Init installs the font (R146, R230). -/
theorem fontInPlace_reset : FontInPlace State.reset.mem := by
  intro k hk
  have := fontBase_add_le
  show initByte (fontBase + k) = fontByte k
  simp [initByte, initByteOf, Config.fontSize, show fontBase + k < Config.entry by omega, hk]

/-- Bytes copied to ENTRY or above leave the font as it is (R231). -/
theorem FontInPlace.copyBytes {m : Memory} (h : FontInPlace m) {a : Nat} (ha : Config.entry ≤ a) (bs : List Byte) :
    FontInPlace (copyBytes m a bs) := by
  intro k hk
  have := fontBase_add_le
  rw [read_copyBytes, dif_neg (by omega)]
  exact h k hk

/-! ### The cycle -/

/-- A cycle in Ready with `pc + 2 < 4096` runs the opcode at pc in the state after the fetch (R70). -/
theorem cycle_of_fetch {p : NearMissPolicy} {s : State} (hs : s.status = .ready)
    (hpc : s.pc.toNat + 2 < Config.memSize) :
    cycle p s = execute p (wordAt s s.pc.toNat) s.fetched := by
  simp [cycle, hs, fetch_ok hpc, wordAt, State.fetched]

/-- Everything a cycle in Ready can do: its fetch raises and it commits nothing, or it runs the opcode at pc. -/
theorem cycle_cases_of_ready {p : NearMissPolicy} {s : State} (hs : s.status = .ready) :
    (∃ e, fetch s = .error e ∧ cycle p s = .next (s.haltAt s.pc e)) ∨
      (s.pc.toNat + 2 < Config.memSize ∧ cycle p s = execute p (wordAt s s.pc.toNat) s.fetched) := by
  by_cases h : s.pc.toNat + 2 < Config.memSize
  · exact .inr ⟨h, cycle_of_fetch hs h⟩
  · cases hf : fetch s with
    | error e => exact .inl ⟨e, rfl, by simp [cycle, hs, hf]⟩
    | ok r => exact absurd (fetch_eq_ok.mp (show fetch s = .ok (r.1, r.2) from hf)).1 h

/-- A step with nothing scheduled is a cycle. -/
theorem stepUnder_of_empty {p : NearMissPolicy} {s : State} (h : s.schedule = []) : stepUnder p s = cycle p s := by
  simp [stepUnder, nextEvent, h, runEvent]

/-- A step whose first scheduled event is `e` is that event, taken off the schedule (R44). -/
theorem stepUnder_of_cons {p : NearMissPolicy} {s : State} {e : Event} {rest : List Event} (h : s.schedule = e :: rest) :
    stepUnder p s = runEvent p e { s with schedule := rest } := by
  simp [stepUnder, nextEvent, h]

/-- The state an event runs in has that event taken off the schedule. -/
theorem nextEvent_snd (s : State) : (nextEvent s).2 = { s with schedule := s.schedule.tail } := by
  unfold nextEvent
  split
  · next h => rw [h, List.tail_nil, ← h]
  · next h => rw [h, List.tail_cons]

/-- The next event is a cycle when nothing is scheduled or a cycle stands first. -/
theorem nextEvent_fst_eq_cycle {s : State} :
    (nextEvent s).1 = .cycle ↔ s.schedule = [] ∨ s.schedule.head? = some .cycle := by
  unfold nextEvent
  split <;> simp [*]

/-- A step whose next event is a cycle, scheduled or not. -/
theorem stepUnder_of_cycle {p : NearMissPolicy} {s : State} (h : (nextEvent s).1 = .cycle) :
    stepUnder p s = cycle p { s with schedule := s.schedule.tail } := by
  rw [stepUnder, h, runEvent, nextEvent_snd]

/-- A step whose next event is a cycle that passes its fetch, scheduled or not (R70). -/
theorem stepUnder_of_fetch {p : NearMissPolicy} {s : State} (hs : s.status = .ready) (hc : (nextEvent s).1 = .cycle)
    (hpc : s.pc.toNat + 2 < Config.memSize) :
    stepUnder p s = execute p (wordAt s s.pc.toNat)
      { s with pc := BitVec.ofNat 16 (s.pc.toNat + 2), schedule := s.schedule.tail } := by
  rw [stepUnder_of_cycle hc]
  exact cycle_of_fetch (s := { s with schedule := s.schedule.tail }) hs hpc

theorem step_of_fetchable {s : State} (h : Fetchable s) :
    step s = execute .noop (wordAt s s.pc.toNat) s.fetched := by
  rw [step, stepUnder_of_empty h.nothing_scheduled]
  exact cycle_of_fetch h.ready h.pc_lt

/-- What the default policy does with an opcode: run its instruction, or nothing (R77, R78). -/
theorem execute_noop (op : Word) (s : State) :
    execute .noop op s = match decodeWord op with | .ok i => exec i s | .error _ => .next s := by
  unfold execute
  split <;> simp_all

/-- The address of the instruction that runs, in the state after its fetch, is the pc before the fetch (R25). -/
theorem instrAddr_fetched {s : State} (h : s.pc.toNat + 2 < Config.memSize) : s.fetched.instrAddr = s.pc := by
  apply BitVec.eq_of_toNat_eq
  simp [State.fetched, State.instrAddr, BitVec.toNat_sub, Config.memSize] at *
  omega

end Sys2Proof.Machine
end

