-- ==== Sys2Proof/Laws/PerInstr.lean ====
section
/-! SUPPORT. The family RowMatch: the word of every instruction carries the fixed bits of its row of the opcode table
(spec/30_encoding.md R75), one lemma per constructor. -/

namespace Sys2Proof.Laws.RowMatch

/-- The word matches its row, and the row stands in the table. -/
def Statement (i : Instr) : Prop := i.row.Matches (encodeWord i) ∧ i.row ∈ opcodeTable

/-! ### The fixed bits of each format (R72) -/

theorem mask_nnn (f : BitVec 4) (nnn : Addr) : (f ++ nnn) &&& 0xF000#16 = f ++ 0#12 := by
  rw [show (0xF000#16 : Word) = 0xF#4 ++ 0#12 by decide, BitVec.and_append, BitVec.and_zero,
    show (0xF#4 : BitVec 4) = BitVec.allOnes 4 by decide, BitVec.and_allOnes]

theorem mask_xkk (f x : BitVec 4) (kk : Byte) : (f ++ x ++ kk) &&& 0xF000#16 = f ++ 0#4 ++ 0#8 := by
  rw [show (0xF000#16 : Word) = 0xF#4 ++ 0#4 ++ 0#8 by decide, BitVec.and_append, BitVec.and_append, BitVec.and_zero,
    BitVec.and_zero, show (0xF#4 : BitVec 4) = BitVec.allOnes 4 by decide, BitVec.and_allOnes]

theorem mask_xsub (f x : BitVec 4) (kk : Byte) : (f ++ x ++ kk) &&& 0xF0FF#16 = f ++ 0#4 ++ kk := by
  rw [show (0xF0FF#16 : Word) = 0xF#4 ++ 0#4 ++ 0xFF#8 by decide, BitVec.and_append, BitVec.and_append, BitVec.and_zero,
    show (0xF#4 : BitVec 4) = BitVec.allOnes 4 by decide, show (0xFF#8 : Byte) = BitVec.allOnes 8 by decide,
    BitVec.and_allOnes, BitVec.and_allOnes]

theorem mask_xyn (f x y n : BitVec 4) : (f ++ x ++ y ++ n) &&& 0xF00F#16 = f ++ 0#4 ++ 0#4 ++ n := by
  rw [show (0xF00F#16 : Word) = 0xF#4 ++ 0#4 ++ 0#4 ++ 0xF#4 by decide, BitVec.and_append, BitVec.and_append,
    BitVec.and_append, BitVec.and_zero, BitVec.and_zero, show (0xF#4 : BitVec 4) = BitVec.allOnes 4 by decide,
    BitVec.and_allOnes, BitVec.and_allOnes]

theorem mask_drw (f x y n : BitVec 4) : (f ++ x ++ y ++ n) &&& 0xF000#16 = f ++ 0#4 ++ 0#4 ++ 0#4 := by
  rw [show (0xF000#16 : Word) = 0xF#4 ++ 0#4 ++ 0#4 ++ 0#4 by decide, BitVec.and_append, BitVec.and_append,
    BitVec.and_append, BitVec.and_zero, BitVec.and_zero, BitVec.and_zero,
    show (0xF#4 : BitVec 4) = BitVec.allOnes 4 by decide, BitVec.and_allOnes]

/-! ### One lemma per constructor -/

theorem cls : Statement .cls :=
  ⟨rfl, List.mem_map.mpr ⟨.cls, by decide, rfl⟩⟩

theorem ret : Statement .ret :=
  ⟨rfl, List.mem_map.mpr ⟨.ret, by decide, rfl⟩⟩

theorem jp (nnn : Addr) : Statement (.jp nnn) :=
  ⟨(mask_nnn _ nnn).trans rfl, List.mem_map.mpr ⟨.jp 0, by decide, rfl⟩⟩

theorem call (nnn : Addr) : Statement (.call nnn) :=
  ⟨(mask_nnn _ nnn).trans rfl, List.mem_map.mpr ⟨.call 0, by decide, rfl⟩⟩

theorem seImm (x : Reg) (kk : Byte) : Statement (.seImm x kk) :=
  ⟨(mask_xkk _ _ kk).trans rfl, List.mem_map.mpr ⟨.seImm 0 0, by decide, rfl⟩⟩

theorem sneImm (x : Reg) (kk : Byte) : Statement (.sneImm x kk) :=
  ⟨(mask_xkk _ _ kk).trans rfl, List.mem_map.mpr ⟨.sneImm 0 0, by decide, rfl⟩⟩

theorem seReg (x : Reg) (y : Reg) : Statement (.seReg x y) :=
  ⟨(mask_xyn _ _ _ _).trans rfl, List.mem_map.mpr ⟨.seReg 0 0, by decide, rfl⟩⟩

theorem ldImm (x : Reg) (kk : Byte) : Statement (.ldImm x kk) :=
  ⟨(mask_xkk _ _ kk).trans rfl, List.mem_map.mpr ⟨.ldImm 0 0, by decide, rfl⟩⟩

theorem addImm (x : Reg) (kk : Byte) : Statement (.addImm x kk) :=
  ⟨(mask_xkk _ _ kk).trans rfl, List.mem_map.mpr ⟨.addImm 0 0, by decide, rfl⟩⟩

theorem ldReg (x : Reg) (y : Reg) : Statement (.ldReg x y) :=
  ⟨(mask_xyn _ _ _ _).trans rfl, List.mem_map.mpr ⟨.ldReg 0 0, by decide, rfl⟩⟩

theorem orReg (x : Reg) (y : Reg) : Statement (.orReg x y) :=
  ⟨(mask_xyn _ _ _ _).trans rfl, List.mem_map.mpr ⟨.orReg 0 0, by decide, rfl⟩⟩

theorem andReg (x : Reg) (y : Reg) : Statement (.andReg x y) :=
  ⟨(mask_xyn _ _ _ _).trans rfl, List.mem_map.mpr ⟨.andReg 0 0, by decide, rfl⟩⟩

theorem xorReg (x : Reg) (y : Reg) : Statement (.xorReg x y) :=
  ⟨(mask_xyn _ _ _ _).trans rfl, List.mem_map.mpr ⟨.xorReg 0 0, by decide, rfl⟩⟩

theorem addReg (x : Reg) (y : Reg) : Statement (.addReg x y) :=
  ⟨(mask_xyn _ _ _ _).trans rfl, List.mem_map.mpr ⟨.addReg 0 0, by decide, rfl⟩⟩

theorem sub (x : Reg) (y : Reg) : Statement (.sub x y) :=
  ⟨(mask_xyn _ _ _ _).trans rfl, List.mem_map.mpr ⟨.sub 0 0, by decide, rfl⟩⟩

theorem shr (x : Reg) (y : Reg) : Statement (.shr x y) :=
  ⟨(mask_xyn _ _ _ _).trans rfl, List.mem_map.mpr ⟨.shr 0 0, by decide, rfl⟩⟩

theorem subn (x : Reg) (y : Reg) : Statement (.subn x y) :=
  ⟨(mask_xyn _ _ _ _).trans rfl, List.mem_map.mpr ⟨.subn 0 0, by decide, rfl⟩⟩

theorem shl (x : Reg) (y : Reg) : Statement (.shl x y) :=
  ⟨(mask_xyn _ _ _ _).trans rfl, List.mem_map.mpr ⟨.shl 0 0, by decide, rfl⟩⟩

theorem sneReg (x : Reg) (y : Reg) : Statement (.sneReg x y) :=
  ⟨(mask_xyn _ _ _ _).trans rfl, List.mem_map.mpr ⟨.sneReg 0 0, by decide, rfl⟩⟩

theorem ldI (nnn : Addr) : Statement (.ldI nnn) :=
  ⟨(mask_nnn _ nnn).trans rfl, List.mem_map.mpr ⟨.ldI 0, by decide, rfl⟩⟩

theorem jpV0 (nnn : Addr) : Statement (.jpV0 nnn) :=
  ⟨(mask_nnn _ nnn).trans rfl, List.mem_map.mpr ⟨.jpV0 0, by decide, rfl⟩⟩

theorem rnd (x : Reg) (kk : Byte) : Statement (.rnd x kk) :=
  ⟨(mask_xkk _ _ kk).trans rfl, List.mem_map.mpr ⟨.rnd 0 0, by decide, rfl⟩⟩

theorem drw (x : Reg) (y : Reg) (n : Nat) : Statement (.drw x y n) :=
  ⟨(mask_drw _ _ _ _).trans rfl, List.mem_map.mpr ⟨.drw 0 0 0, by decide, rfl⟩⟩

theorem skp (x : Reg) : Statement (.skp x) :=
  ⟨(mask_xsub _ _ _).trans rfl, List.mem_map.mpr ⟨.skp 0, by decide, rfl⟩⟩

theorem sknp (x : Reg) : Statement (.sknp x) :=
  ⟨(mask_xsub _ _ _).trans rfl, List.mem_map.mpr ⟨.sknp 0, by decide, rfl⟩⟩

theorem ldVxDt (x : Reg) : Statement (.ldVxDt x) :=
  ⟨(mask_xsub _ _ _).trans rfl, List.mem_map.mpr ⟨.ldVxDt 0, by decide, rfl⟩⟩

theorem ldK (x : Reg) : Statement (.ldK x) :=
  ⟨(mask_xsub _ _ _).trans rfl, List.mem_map.mpr ⟨.ldK 0, by decide, rfl⟩⟩

theorem ldDt (x : Reg) : Statement (.ldDt x) :=
  ⟨(mask_xsub _ _ _).trans rfl, List.mem_map.mpr ⟨.ldDt 0, by decide, rfl⟩⟩

theorem ldSt (x : Reg) : Statement (.ldSt x) :=
  ⟨(mask_xsub _ _ _).trans rfl, List.mem_map.mpr ⟨.ldSt 0, by decide, rfl⟩⟩

theorem addI (x : Reg) : Statement (.addI x) :=
  ⟨(mask_xsub _ _ _).trans rfl, List.mem_map.mpr ⟨.addI 0, by decide, rfl⟩⟩

theorem ldF (x : Reg) : Statement (.ldF x) :=
  ⟨(mask_xsub _ _ _).trans rfl, List.mem_map.mpr ⟨.ldF 0, by decide, rfl⟩⟩

theorem ldB (x : Reg) : Statement (.ldB x) :=
  ⟨(mask_xsub _ _ _).trans rfl, List.mem_map.mpr ⟨.ldB 0, by decide, rfl⟩⟩

theorem stRegs (x : Reg) : Statement (.stRegs x) :=
  ⟨(mask_xsub _ _ _).trans rfl, List.mem_map.mpr ⟨.stRegs 0, by decide, rfl⟩⟩

theorem ldRegs (x : Reg) : Statement (.ldRegs x) :=
  ⟨(mask_xsub _ _ _).trans rfl, List.mem_map.mpr ⟨.ldRegs 0, by decide, rfl⟩⟩

end Sys2Proof.Laws.RowMatch
end

