-- ==== Sys2Proof/Laws/ResetPolicy.lean ====
section
/-! SUPPORT. Which cells hold a value after a write, in the layer for RESET_POLICY = refuse_unwritten_read. -/

namespace Sys2Proof.Machine

/-- A write gives a value to its own cell and to no other (R40). -/
theorem has_mark (w : Written) (c d : RegCell) : (w.mark c).has d = true ↔ w.has d = true ∨ d = c := by
  cases c <;> cases d <;> simp [Written.mark, Written.has, Vector.getElem_set]
  rename_i a b
  by_cases h : a.val = b.val
  · simp [Fin.ext h]
  · have : b ≠ a := fun e => h (by rw [e])
    simp [h, this]

/-- The cells of a list, written one after the other. -/
theorem has_foldl_mark (cells : List RegCell) (w : Written) (d : RegCell) :
    (cells.foldl Written.mark w).has d = true ↔ w.has d = true ∨ d ∈ cells := by
  induction cells generalizing w with
  | nil => simp
  | cons c cells ih => simp only [List.foldl_cons, ih, has_mark, List.mem_cons, or_assoc]

end Sys2Proof.Machine
end

