-- ==== Sys2Proof/Tests/Slice0.lean ====
section
/-! SUPPORT. The model's own tests. Expected values come from the encodings of spec/30_encoding.md (R72, R75, R80) and from
the vectors of spec/95_test_vectors.md, named by their ids (A10, D2, ...). The witnesses at the end show, for each
statement with hypotheses, a state and operands that meet them. -/

namespace Sys2Proof.Tests

open Sys2Proof Sys2Proof.Machine Sys2Proof.Claims

/-! ### Well-formedness and decoding -/

theorem test_wf_refuses_a_height_of_16 : (Instr.drw 0 0 16).wf = false := by decide
theorem test_wf_accepts_a_height_of_15 : (Instr.drw 0 0 15).wf = true := by decide
theorem test_wf_accepts_a_height_of_0 : (Instr.drw 0 0 0).wf = true := by decide

theorem test_decode_cls : decodeWord 0b0000_0000_1110_0000#16 = .ok .cls := by decide
theorem test_decode_ret : decodeWord 0b0000_0000_1110_1110#16 = .ok .ret := by decide
theorem test_decode_jp : decodeWord 0b0001_1010_1011_1100#16 = .ok (.jp 0xABC) := by decide
theorem test_decode_call : decodeWord 0b0010_1111_0000_0001#16 = .ok (.call 0xF01) := by decide
theorem test_decode_seImm : decodeWord 0b0011_0101_1000_0001#16 = .ok (.seImm 5 0x81) := by decide
theorem test_decode_sneImm : decodeWord 0b0100_1110_0111_1111#16 = .ok (.sneImm 14 0x7F) := by decide
theorem test_decode_seReg : decodeWord 0b0101_0010_1100_0000#16 = .ok (.seReg 2 12) := by decide
theorem test_decode_ldImm : decodeWord 0b0110_1010_0111_1011#16 = .ok (.ldImm 10 0x7B) := by decide
theorem test_decode_addImm : decodeWord 0b0111_0001_1111_1110#16 = .ok (.addImm 1 0xFE) := by decide
theorem test_decode_ldReg : decodeWord 0b1000_0001_0010_0000#16 = .ok (.ldReg 1 2) := by decide
theorem test_decode_orReg : decodeWord 0b1000_0011_0100_0001#16 = .ok (.orReg 3 4) := by decide
theorem test_decode_andReg : decodeWord 0b1000_0101_0110_0010#16 = .ok (.andReg 5 6) := by decide
theorem test_decode_xorReg : decodeWord 0b1000_0111_1000_0011#16 = .ok (.xorReg 7 8) := by decide
theorem test_decode_addReg : decodeWord 0b1000_1001_1010_0100#16 = .ok (.addReg 9 10) := by decide
theorem test_decode_sub : decodeWord 0b1000_1011_1100_0101#16 = .ok (.sub 11 12) := by decide
theorem test_decode_shr : decodeWord 0b1000_1101_1110_0110#16 = .ok (.shr 13 14) := by decide
theorem test_decode_subn : decodeWord 0b1000_1111_0000_0111#16 = .ok (.subn 15 0) := by decide
theorem test_decode_shl : decodeWord 0b1000_0100_1111_1110#16 = .ok (.shl 4 15) := by decide
theorem test_decode_sneReg : decodeWord 0b1001_0001_0010_0000#16 = .ok (.sneReg 1 2) := by decide
theorem test_decode_ldI : decodeWord 0b1010_0010_0000_1100#16 = .ok (.ldI 0x20C) := by decide
theorem test_decode_jpV0 : decodeWord 0b1011_0001_0000_0011#16 = .ok (.jpV0 0x103) := by decide
theorem test_decode_rnd : decodeWord 0b1100_0110_0000_1111#16 = .ok (.rnd 6 0x0F) := by decide
theorem test_decode_drw : decodeWord 0b1101_0001_0010_1111#16 = .ok (.drw 1 2 15) := by decide
theorem test_decode_skp : decodeWord 0b1110_0101_1001_1110#16 = .ok (.skp 5) := by decide
theorem test_decode_sknp : decodeWord 0b1110_0101_1010_0001#16 = .ok (.sknp 5) := by decide
theorem test_decode_ldVxDt : decodeWord 0b1111_0001_0000_0111#16 = .ok (.ldVxDt 1) := by decide
theorem test_decode_ldK : decodeWord 0b1111_0010_0000_1010#16 = .ok (.ldK 2) := by decide
theorem test_decode_ldDt : decodeWord 0b1111_0011_0001_0101#16 = .ok (.ldDt 3) := by decide
theorem test_decode_ldSt : decodeWord 0b1111_0100_0001_1000#16 = .ok (.ldSt 4) := by decide
theorem test_decode_addI : decodeWord 0b1111_0101_0001_1110#16 = .ok (.addI 5) := by decide
theorem test_decode_ldF : decodeWord 0b1111_0110_0010_1001#16 = .ok (.ldF 6) := by decide
theorem test_decode_ldB : decodeWord 0b1111_0111_0011_0011#16 = .ok (.ldB 7) := by decide
theorem test_decode_stRegs : decodeWord 0b1111_1000_0101_0101#16 = .ok (.stRegs 8) := by decide
theorem test_decode_ldRegs : decodeWord 0b1111_1001_0110_0101#16 = .ok (.ldRegs 9) := by decide

/-- The high byte comes first (R52). -/
theorem test_decodeBytes_high_byte_first : decodeBytes [0xA2, 0x0C, 0x99] = .ok (.ldI 0x20C, [0x99]) := by decide
theorem test_decodeTableWord : decodeTableWord 16 0xA20C = some (.ldI 0x20C) := by decide
theorem test_decode_unknown : decodeWord 0x8018#16 = .error (.unknownOpcode 0x8018#16) := by decide
theorem test_decode_near_miss : decodeWord 0x0AE0#16 = .error (.nearMiss 0x0AE0#16) := by decide

/-! ### One step each -/

/-- The state an outcome goes on in. -/
def nextOf : Out → Option State
  | .next t => some t
  | .fault _ | .refused _ => none

/-- The state after the one step that runs the word `w`, placed at the pc of `s`. -/
def run1 (s : State) (w : Nat) : Option State := nextOf (step (s.withFetchWord 16 w))

/-- The state of a machine with a byte of memory set. -/
def poke (s : State) (a : Nat) (b : Byte) : State := { s with mem := s.mem.write a b }

/-- Reset, with V[x] = a and V[y] = b. -/
def two (x : Reg) (a : Byte) (y : Reg) (b : Byte) : State := (State.reset.setV x a).setV y b

theorem test_A1_ldImm : (run1 State.reset 0x6A7B).map (fun t => (t.getV 10, t.pc)) = some (0x7B, 0x202) := by decide
theorem test_A2_addImm : (run1 (two 0 5 15 9) 0x70FF).map (fun t => (t.getV 0, t.getV 15)) = some (4, 9) := by decide
theorem test_A5_ldReg : (run1 (two 1 0 2 9) 0x8120).map (fun t => (t.getV 1, t.getV 2)) = some (9, 9) := by decide
theorem test_A6_orReg : (run1 (two 0 0x0F 1 0xF0) 0x8011).map (·.getV 0) = some 0xFF := by decide
theorem test_A7_andReg : (run1 (two 0 0x3C 1 0x0F) 0x8012).map (·.getV 0) = some 0x0C := by decide
theorem test_A8_xorReg : (run1 (two 0 0xFF 1 0x0F) 0x8013).map (·.getV 0) = some 0xF0 := by decide
theorem test_A13_addReg : (run1 (two 15 0xFF 0 1) 0x8F04).map (·.getV 15) = some 0 := by decide
theorem test_A14_addReg : (run1 (two 0 0xFF 15 1) 0x80F4).map (fun t => (t.getV 0, t.getV 15)) = some (0, 1) := by decide
theorem test_A17_sub : (run1 (two 0 7 1 7) 0x8015).map (fun t => (t.getV 0, t.getV 15)) = some (0, 0) := by decide
theorem test_A19_sub : (run1 (two 0 3 15 5) 0x80F5).map (fun t => (t.getV 0, t.getV 15)) = some (0xFE, 0) := by decide
theorem test_A21_shr : (run1 (two 3 0x81 4 0) 0x8346).map (fun t => (t.getV 3, t.getV 15)) = some (0x40, 1) := by decide
theorem test_A23_shr : (run1 (two 15 2 0 0) 0x8F06).map (·.getV 15) = some 1 := by decide
theorem test_A24_subn : (run1 (two 0 44 2 6) 0x8027).map (fun t => (t.getV 0, t.getV 15)) = some (0xDA, 0) := by decide
theorem test_A28_shl : (run1 (two 0 0x7F 1 0) 0x800E).map (fun t => (t.getV 0, t.getV 15)) = some (0xFE, 0) := by decide
theorem test_A30_shl : (run1 (two 15 0x81 0 0) 0x8F0E).map (·.getV 15) = some 2 := by decide
/-- A31: with kk = 0 the result is 0 for every draw. -/
theorem test_A31_rnd (s : State) : (nextOf (exec (.rnd 0 0) s)).map (·.getV 0) = some 0 := by
  simp [exec, execRnd, nextOf]

theorem test_J1_call : (run1 State.reset 0x2300).map (fun t => (t.slot 0, t.sp.val, t.pc)) = some (0x202, 1, 0x300) := by
  decide
theorem test_J3_call : (run1 { State.reset with sp := 16 } 0x2300).map (fun t => (t.status, t.pc, t.sp.val)) =
    some (.halted .stackOverflow 0x200, 0x200, 16) := by decide
theorem test_J4_ret : (run1 { State.reset with sp := 1, stack := State.reset.stack.set 0 0x202 } 0x00EE).map
    (fun t => (t.pc, t.sp.val, t.slot 0)) = some (0x202, 0, 0x202) := by decide
theorem test_J5_ret : (run1 State.reset 0x00EE).map (fun t => (t.status, t.pc)) =
    some (.halted .stackUnderflow 0x200, 0x200) := by decide
theorem test_J6_jp : (run1 { State.reset with pc := 0x20A } 0x1204).map (·.pc) = some 0x204 := by decide
theorem test_J8_jpV0 : (run1 (two 0 0x10 3 0x77) 0xB300).map (·.pc) = some 0x310 := by decide
theorem test_J11_jpV0 : (run1 (two 0 0xFF 1 0) 0xBFFF).map (fun t => (t.status, t.pc)) =
    some (.halted .pcRange 0x10FE, 0x200) := by decide

theorem test_S1v_seImm : (run1 (two 0 5 1 0) 0x3005).map (·.pc) = some 0x204 := by decide
theorem test_S10v_seImm : (run1 { two 0 5 1 0 with pc := 0xFFC } 0x3005).map (fun t => (t.status, t.pc)) =
    some (.halted .pcRange 0x1000, 0xFFC) := by decide
theorem test_S4v_sneImm : (run1 (two 0 5 1 0) 0x4005).map (·.pc) = some 0x202 := by decide
theorem test_S5v_seReg : (run1 (two 1 7 2 7) 0x5120).map (·.pc) = some 0x204 := by decide
theorem test_S7v_sneReg : (run1 (two 1 7 2 8) 0x9120).map (·.pc) = some 0x204 := by decide

theorem test_M1_ldI : (run1 State.reset 0xA300).map (·.idx) = some 0x300 := by decide
theorem test_M3_addI : (run1 { two 0 1 15 7 with idx := 0xFFFF } 0xF01E).map (fun t => (t.idx, t.getV 15)) =
    some (0, 7) := by decide
/-- M6: only the low nibble selects the glyph, wherever the font is. -/
theorem test_M6_ldF : (nextOf (exec (.ldF 0) (two 0 0x1A 1 0))).map (·.idx) =
    some (BitVec.ofNat 16 (fontBase + 50)) := rfl
theorem test_M7_ldB : (run1 { two 10 123 0 0 with idx := 0x300 } 0xFA33).map
    (fun t => (t.mem.read 0x300, t.mem.read 0x301, t.mem.read 0x302, t.idx)) = some (1, 2, 3, 0x300) := by decide
theorem test_M11_ldB : (run1 { two 0 7 1 0 with idx := 0xFFE } 0xF033).map (fun t => (t.status, t.mem.read 0xFFE)) =
    some (.halted .memRange 0x1000, 0) := by decide
theorem test_M12_stRegs : (run1 { (two 0 1 1 2).setV 2 3 with idx := 0x300 } 0xF255).map
    (fun t => (t.mem.read 0x300, t.mem.read 0x302, t.mem.read 0x303, t.idx)) = some (1, 3, 0, 0x300) := by decide
theorem test_M16_ldRegs : (run1 (poke (poke { two 3 9 4 8 with idx := 0x300 } 0x300 1) 0x302 3) 0xF265).map
    (fun t => (t.getV 0, t.getV 1, t.getV 2, t.getV 3)) = some (1, 0, 3, 9) := by decide
theorem test_M18_ldRegs : (run1 { two 0 7 1 0 with idx := 0xFFF } 0xF165).map (fun t => (t.status, t.getV 0)) =
    some (.halted .memRange 0x1000, 7) := by decide

/-- The display of D7's start: (60, 31) lit. -/
def oneLit : State := { (two 0 60 1 31) with idx := 0x300, disp := flipPixel blankDisplay 60 31 }

theorem test_D1_cls : (run1 oneLit 0x00E0).map (·.disp) = some blankDisplay := by decide
theorem test_D2_drw : (run1 (poke (poke { two 0 0 1 0 with idx := 0x300 } 0x300 0xC0) 0x301 0x81) 0xD012).map
    (fun t => ((t.disp[0], t.disp[1]), t.getV 15)) = some ((0b11, 0b10000001), 0) := by decide
theorem test_D7_drw : (run1 (poke (poke oneLit 0x300 0xFF) 0x301 0xFF) 0xD012).map
    (fun t => ((t.disp[31], t.disp[0]), t.getV 15)) = some ((0xE000000000000000, 0), 1) := by decide

/-- Keys 3 and 9 down. -/
def keys39 : Keys := ((Vector.replicate 16 false).set 3 true).set 9 true

theorem test_K3_skp : (run1 { two 1 0x13 0 0 with key := keys39 } 0xE19E).map (·.pc) = some 0x204 := by decide
theorem test_K4_sknp : (run1 { two 1 5 0 0 with key := keys39 } 0xE1A1).map (·.pc) = some 0x204 := by decide
theorem test_K5_ldK : (run1 (two 0 7 1 0) 0xF00A).map (fun t => (t.getV 0, t.pc)) = some (7, 0x200) := by decide
theorem test_K6_ldK : (run1 { two 0 7 1 0 with key := keys39 } 0xF00A).map (fun t => (t.getV 0, t.pc)) =
    some (3, 0x202) := by decide

theorem test_T1_ldVxDt : (run1 { State.reset with dt := 2 } 0xF107).map (fun t => (t.getV 1, t.dt)) = some (2, 2) := by
  decide
theorem test_T2_ldDt : (run1 (two 0 3 1 0) 0xF015).map (fun t => (t.dt, t.st)) = some (3, 0) := by decide
theorem test_T3_ldSt : (run1 (two 2 0x3C 1 0) 0xF218).map (fun t => (t.st, t.dt)) = some (0x3C, 0) := by decide

theorem test_U4_near_miss : (run1 oneLit 0x0AE0).map (fun t => (t.pc, t.disp)) = some (0x202, oneLit.disp) := by decide
theorem test_U12_fetch : (run1 { State.reset with pc := 0xFFF } 0x1200).map (fun t => (t.status, t.pc)) =
    some (.halted .memRange 0x1000, 0xFFF) := by decide

/-! ### The host's operations -/

theorem test_T7_tick : (nextOf (step { State.reset with
    dt := 5, status := .halted .pcRange 0x1000, schedule := [.host .tick] })).map (fun t => (t.dt, t.st, t.status)) =
    some (4, 0, .halted .pcRange 0x1000) := by decide
theorem test_loadRom : (nextOf (step { State.reset with schedule := [.host (.loadRom [0x12, 0x34])] })).map
    (fun t => (t.mem.read 0x200, t.mem.read 0x201, t.status)) = some (0x12, 0x34, .ready) := by decide
theorem test_L5_init : (nextOf (step { State.reset with
    status := .halted .memRange 0x1000, pc := 0x300, schedule := [.host .init] })).map (fun t => (t.pc, t.status)) =
    some (0x200, .created) := by decide

/-- Whether an outcome is a refusal. -/
def refusalOf {σ : Type} : Host.Outcome σ Fault Refusal → Option Refusal
  | .refused r => some r
  | .next _ | .fault _ => none

theorem test_L4_loadRom : refusalOf (step { State.reset with status := .ready, schedule := [.host (.loadRom [])] }) =
    some .loadRomNotAdmitted := by decide
theorem test_L6_cycle : refusalOf (step State.reset) = some .noRomLoaded := by decide
theorem test_Z1_unwritten : refusalOf (trackedStep ⟨State.reset.withFetchWord 16 0x7001, Written.none⟩) =
    some .unwrittenRead := by decide
/-- U4 under both refusing settings at once: the near miss 0AE0 is refused as one. -/
theorem test_U4_refused : refusalOf (trackedStepUnder .refuse ⟨State.reset.withFetchWord 16 0x0AE0, Written.none⟩) =
    some (.nearMissOpcode 0x0AE0) := by decide
theorem test_Z2_written : refusalOf (trackedStep ⟨State.reset.withFetchWord 16 0x6005, Written.none⟩) = none := by decide

/-! ### Witnesses: what each statement assumes can hold -/

/-- Ready at `pc`, with the word `w` there. -/
def readyAt (pc : Word) (w : Nat) : State := ({ State.reset with pc := pc }).withFetchWord 16 w

/-- Sixteen return addresses pushed, pc at the top of memory. -/
def full : State :=
  { State.reset with status := .ready, pc := 0xFFF, sp := 16, stack := Vector.replicate 16 0xFFF }

theorem full_inv : Inv full := ⟨by decide, by decide, rfl⟩

theorem witness_DecodeOfEncodeIsTheInstruction : (Instr.drw 15 0 15).wf = true := by decide

theorem witness_EncodeOfDecodeIsTheWord : decodeWord 0xDFFF#16 = .ok (.drw 15 15 15) := by decide

theorem witness_DecodeSelectsTheMatchingRow :
    (Instr.drw 0 0 0).row ∈ opcodeTable ∧ (Instr.drw 0 0 0).row.Matches 0xDFFF#16 := ⟨by decide, rfl⟩

theorem witness_RowsOfTheTableAreDisjoint :
    (Instr.shl 0 0).row ∈ opcodeTable ∧ (Instr.shl 0 0).row.Matches 0x8FFE#16 := ⟨by decide, rfl⟩

theorem witness_RejectedWordsAreTheUnknownOpcodes :
    ¬ UnknownWord 0x00E0 ∧ (UnknownWord 0x01E0 ∧ NearMissWord 0x01E0) ∧ (UnknownWord 0xFFFF ∧ ¬ NearMissWord 0xFFFF) :=
  ⟨by unfold UnknownWord; decide, ⟨by unfold UnknownWord; decide, by unfold NearMissWord; decide⟩,
    ⟨by unfold UnknownWord; decide, by unfold NearMissWord; decide⟩⟩

theorem witness_StepRunsTheDecodedInstruction :
    Fetchable (readyAt 0xFFD 0xFF65) ∧
    decodeBytes [(readyAt 0xFFD 0xFF65).mem.read 0xFFD, (readyAt 0xFFD 0xFF65).mem.read 0xFFE] =
      .ok (.ldRegs 15, []) := ⟨⟨rfl, rfl, by decide⟩, by decide⟩

/-- The reset state with one host operation scheduled. -/
def scheduled (op : HostOp) : State := { State.reset with schedule := [.host op] }

theorem witness_ScheduledEventIsTheNextStep :
    (∃ s : State, s.schedule = [.cycle, .host .tick] ∧ s.status = .ready ∧ s.pc.toNat + 2 < 4096 ∧
      decodeBytes [s.mem.read s.pc.toNat, s.mem.read (s.pc.toNat + 1)] = .ok (.cls, [])) ∧
    (scheduled .tick).schedule = .host .tick :: [] :=
  ⟨⟨{ readyAt 0xFFD 0x00E0 with schedule := [.cycle, .host .tick] }, rfl, rfl, by decide, by decide⟩, rfl⟩

/-- The state with a cycle and a Tick scheduled. -/
def cycleThenTick (s : State) : State := { s with schedule := [.cycle, .host .tick] }

theorem witness_UnknownOpcodeIsANoOp :
    (cycleThenTick (readyAt 0xFFD 0x0000)).status = .ready ∧
    (nextEvent (cycleThenTick (readyAt 0xFFD 0x0000))).1 = .cycle ∧
    (cycleThenTick (readyAt 0xFFD 0x0000)).pc.toNat + 2 < 4096 ∧
    UnknownWord (wordAt (cycleThenTick (readyAt 0xFFD 0x0000)) 0xFFD).toNat :=
  ⟨rfl, rfl, by decide, by unfold UnknownWord; decide⟩

/-- A scheduled cycle at an unknown opcode that is no near miss. -/
def queuedUnknown : State := cycleThenTick (readyAt 0x200 0x8018)

theorem witness_NearMissPolicyDecidesNearMissesAlone :
    ((readyAt 0xFFD 0x5121).status = .ready ∧ (nextEvent (readyAt 0xFFD 0x5121)).1 = .cycle ∧
      (readyAt 0xFFD 0x5121).pc.toNat + 2 < 4096 ∧ NearMissWord (wordAt (readyAt 0xFFD 0x5121) 0xFFD).toNat) ∧
    (queuedUnknown.status = .ready ∧ (nextEvent queuedUnknown).1 = .cycle ∧
      queuedUnknown.pc.toNat + 2 < 4096 ∧ ¬ NearMissWord (wordAt queuedUnknown 0x200).toNat ∧
      UnknownWord (wordAt queuedUnknown 0x200).toNat) :=
  ⟨⟨rfl, rfl, by decide, by unfold NearMissWord; decide⟩,
    ⟨rfl, rfl, by decide, by unfold NearMissWord; decide, by unfold UnknownWord; decide⟩⟩

/-- Each clause with a scheduled cycle and with an empty schedule. -/
theorem witness_FetchAtTheTopOfMemoryHalts :
    ((cycleThenTick (readyAt 0xFFE 0)).status = .ready ∧ (nextEvent (cycleThenTick (readyAt 0xFFE 0))).1 = .cycle ∧
      (cycleThenTick (readyAt 0xFFE 0)).pc.toNat = 0xFFE) ∧
    ((readyAt 0xFFF 0).status = .ready ∧ (nextEvent (readyAt 0xFFF 0)).1 = .cycle ∧
      (readyAt 0xFFF 0).pc.toNat = 0xFFF) := by
  decide

theorem witness_NoCycleOutsideReady :
    ((nextEvent State.reset).1 = .cycle ∧ State.reset.status = .created) ∧
    (∃ s : State, (nextEvent s).1 = .cycle ∧ s.status = .loadFailed 3585) ∧
    (∃ s : State, (nextEvent s).1 = .cycle ∧ s.status = .halted .pcRange 0x1000) :=
  ⟨⟨rfl, rfl⟩, ⟨cycleThenTick { State.reset with status := .loadFailed 3585 }, rfl, rfl⟩,
    ⟨cycleThenTick { State.reset with status := .halted .pcRange 0x1000 }, rfl, rfl⟩⟩

theorem witness_FaultingCycleCommitsNothing :
    ∃ t, step (cycleThenTick (readyAt 0xFFE 0)) = .next t ∧ (cycleThenTick (readyAt 0xFFE 0)).status = .ready ∧
      (nextEvent (cycleThenTick (readyAt 0xFFE 0))).1 = .cycle ∧ t.status = .halted .pcRange 0x1000 :=
  ⟨_, rfl, rfl, rfl, rfl⟩

/-- The clauses in turn: at 0xFFF, at 0xFFE, a skip taken at 0xFFC, an unknown opcode, and a raising instruction. -/
theorem witness_OnlyTheListedConditionsRaise :
    (full.status = .ready ∧ (nextEvent full).1 = .cycle ∧ full.pc.toNat = 0xFFF) ∧
    ((cycleThenTick (readyAt 0xFFE 0)).status = .ready ∧ (nextEvent (cycleThenTick (readyAt 0xFFE 0))).1 = .cycle ∧
      (cycleThenTick (readyAt 0xFFE 0)).pc.toNat = 0xFFE) ∧
    (Inv (readyAt 0xFFC 0x3000) ∧ (readyAt 0xFFC 0x3000).status = .ready ∧
      (nextEvent (readyAt 0xFFC 0x3000)).1 = .cycle ∧ (readyAt 0xFFC 0x3000).pc.toNat + 2 < 4096 ∧
      decodeWord (wordAt (readyAt 0xFFC 0x3000) 0xFFC) = .ok (.seImm 0 0) ∧
      raisedBy (.seImm 0 0) (readyAt 0xFFC 0x3000).fetched = some ⟨.pcRange, 0x1000⟩) ∧
    (queuedUnknown.status = .ready ∧ (nextEvent queuedUnknown).1 = .cycle ∧ queuedUnknown.pc.toNat + 2 < 4096 ∧
      UnknownWord (wordAt queuedUnknown 0x200).toNat) ∧
    Inv full ∧ (∃ t, exec (.call 0xFFF) full = .next t) ∧
    raisedBy (.call 0xFFF) full = some ⟨.stackOverflow, 0xFFD⟩ :=
  ⟨by decide, by decide, ⟨⟨by decide, by decide, by decide⟩, rfl, rfl, by decide, by decide, by decide⟩,
    ⟨rfl, rfl, by decide, by unfold UnknownWord; decide⟩, full_inv, ⟨_, rfl⟩, by decide⟩

theorem witness_EveryStepKeepsTheInvariants :
    ∃ t, Inv (readyAt 0xFFD 0x6A7B) ∧ step (readyAt 0xFFD 0x6A7B) = .next t :=
  ⟨_, ⟨by decide, by decide, by decide⟩, rfl⟩

theorem witness_EveryStepKeepsTheStatusRecord :
    ∃ s t : State, s.status = .halted .stackOverflow 0xFFF ∧ StatusRecord s ∧ step s = .next t :=
  ⟨{ full with status := .halted .stackOverflow 0xFFF, schedule := [.host .tick] }, _, rfl, ⟨by decide, by decide⟩, rfl⟩

/-- A halted engine whose next step is the given host operation. -/
def haltedThen (op : HostOp) : State :=
  { State.reset with status := .halted .memRange 0x1000, schedule := [.host op] }

theorem witness_OnlyInitLeavesHalted :
    (∃ t, step (haltedThen .tick) = .next t ∧ (haltedThen .tick).schedule.head? ≠ some (.host .init)) ∧
    (∃ t, step (haltedThen .init) = .next t ∧ (haltedThen .init).schedule.head? = some (.host .init)) ∧
    (∃ s t : State, s.status = .loadFailed 3585 ∧ step s = .next t ∧ s.schedule.head? ≠ some (.host .init)) :=
  ⟨⟨_, rfl, by decide⟩, ⟨_, rfl, by decide⟩,
    ⟨{ scheduled .tick with status := .loadFailed 3585 }, _, rfl, rfl, by decide⟩⟩

/-- Ready, past a fetch at 0x200, with I = a. -/
def indexed (a : Word) : State := { State.reset with status := .ready, pc := 0x202, idx := a }

theorem witness_IndexAccessFaultsExactlyOutsideMemory :
    indexCount (.ldB 0) = some 3 ∧ (indexed 0xFFE).status = .ready ∧ (1 ≤ 3 ∧ 4096 ≤ (indexed 0xFFE).idx.toNat + 3 - 1) ∧
    (indexed 0xFFD).status = .ready ∧ ¬ (1 ≤ 3 ∧ 4096 ≤ (indexed 0xFFD).idx.toNat + 3 - 1) := by decide

theorem witness_EachUnitIsWrittenByItsOwnInstructionsAlone : ∃ t, exec .cls (indexed 0) = .next t := ⟨_, rfl⟩

theorem witness_CellsOutsideTheWriteSetAreKept :
    (∃ t, exec (.ldRegs 14) (indexed 0xFF1) = .next t) ∧ RegCell.v 15 ∉ cellsWritten (.ldRegs 14) (indexed 0xFF1) :=
  ⟨⟨_, rfl⟩, by decide⟩

theorem witness_CellsOutsideTheReadSetDoNotMatter :
    ∃ s s' : State, s.getV 0 ≠ s'.getV 0 ∧ s.idx ≠ s'.idx ∧ s.status = .ready ∧ SameOutsideCells s s' ∧
      ∀ c ∈ cellsRead (.ldReg 0 1), cellValue c s = cellValue c s' :=
  ⟨indexed 0, (indexed 0xFFFF).setV 0 9, by decide, by decide, rfl, by constructor <;> rfl, by decide⟩

theorem witness_TickCommutesWithOtherInstructions :
    ∀ x : Reg, Instr.addI 3 ≠ .ldVxDt x ∧ Instr.addI 3 ≠ .ldDt x ∧ Instr.addI 3 ≠ .ldSt x := by decide

theorem witness_SetKeypadCommutesWithOtherInstructions :
    ∀ x : Reg, Instr.cls ≠ .skp x ∧ Instr.cls ≠ .sknp x ∧ Instr.cls ≠ .ldK x := by decide

theorem witness_JumpPlusV0GoesToTheExactSum :
    (0xFFF#12).toNat + ((two 0 0 1 0).getV 0).toNat < 4096 ∧ 4096 ≤ (0xFFF#12).toNat + ((two 0 1 1 0).getV 0).toNat := by
  decide

theorem witness_CallPushesTheReturnAddress : (∃ s : State, s.sp.val = 15) ∧ full.sp.val = 16 :=
  ⟨⟨{ full with sp := 15 }, rfl⟩, rfl⟩

theorem witness_ReturnPopsTheReturnAddress :
    (full.sp.val = (15 : Fin 16).val + 1 ∧ (full.slot 15).toNat < 4096) ∧ State.reset.sp.val = 0 := by decide

/-- The three clauses of SkipsWhen: not taken, taken up to pc = 0xFFF, and taken past it. -/
theorem witness_RegisterSkipsFollowTheirCondition :
    ¬ ((State.reset.getV 0).toNat = (1 : Byte).toNat) ∧
    ((State.reset.getV 0).toNat = (0 : Byte).toNat ∧ (readyAt 0xFFD 0).pc.toNat + 2 < 4096) ∧
    ((State.reset.getV 0).toNat = (0 : Byte).toNat ∧ 4096 ≤ (readyAt 0xFFE 0).pc.toNat + 2) := by decide

theorem witness_KeySkipsTestTheLowNibble :
    ((two 1 0x13 0 0).getV 1).toNat % 16 = (3 : Fin 16).val ∧
    State.keyDown { State.reset with key := keys39 } 3 = true ∧ State.reset.keyDown 3 = false := by decide

/-- A CALL of 0xFFC at 0x200, and a RET there. -/
def callRet : State := poke (poke (readyAt 0x200 0x2FFC) 0xFFC 0x00) 0xFFD 0xEE

theorem witness_CallThenReturnIsARoundTrip :
    callRet.sp.val < 16 ∧ Fetchable callRet ∧ (0xFFC#12).toNat + 2 < 4096 ∧
    wordAt callRet callRet.pc.toNat = encodeWord (.call 0xFFC) ∧ wordAt callRet (0xFFC#12).toNat = encodeWord .ret :=
  ⟨by decide, ⟨rfl, rfl, by decide⟩, by decide, by decide, by decide⟩

theorem witness_SpinningChangesNothing :
    Spinning (readyAt 0xFFD 0x1FFD) ∧ (readyAt 0xFFD 0x1FFD).schedule = [] ∧
    CyclePlan 2 [.cycle, .host .tick, .host (.setKeypad keys39), .cycle] ∧ CyclePlan 0 [] :=
  ⟨⟨rfl, by decide, by decide⟩, rfl, ⟨rfl, rfl, .inr rfl, .inr rfl⟩, ⟨rfl, rfl, .inl rfl, .inl rfl⟩⟩

/-- The program P5 before its second cycle that passes: `LD DT, V0` at 0x202 and `LD V1, DT` at 0x204, with V0 = 3. -/
def programP5 : State :=
  { two 0 3 1 0 with status := .ready, pc := 0x202, mem := [(0x202, 0xF0), (0x203, 0x15), (0x204, 0xF1), (0x205, 0x07)] }

/-- P5, steps 6 to 8: of the three steps two are cycles, and V1 gets DT as the Tick between them left it. -/
theorem test_P5_after_two_cycles : ∃ t, AfterCycles 2 [.cycle, .host .tick, .cycle] programP5 t ∧
    t.getV 1 = 2 ∧ t.pc = 0x206 :=
  ⟨_, ⟨⟨rfl, rfl, .inr rfl, .inr rfl⟩, rfl⟩, by decide, by decide⟩

theorem witness_BcdStoresThreeDigits :
    (indexed 0xFFD).idx.toNat + 2 < 4096 ∧ 4096 ≤ (indexed 0xFFE).idx.toNat + 2 := by decide

theorem witness_StoreRegistersWritesThemInOrder :
    (indexed 0xFF0).idx.toNat + (15 : Reg).val < 4096 ∧ 4096 ≤ (indexed 0xFF1).idx.toNat + (15 : Reg).val := by decide

theorem witness_LoadRegistersReadsThemInOrder :
    (indexed 0xFFF).idx.toNat + (0 : Reg).val < 4096 ∧ 4096 ≤ (indexed 0xFFF).idx.toNat + (1 : Reg).val := by decide

/-- P8: 12 and 0A stored at 0x208 are fetched there as JP 20A. -/
theorem witness_StoredBytesAreFetchedAsCode :
    ∃ s t u : State, exec (.stRegs 1) s = .next t ∧ t.status = .ready ∧ s.status = .ready ∧ u.mem = t.mem ∧
      Fetchable u ∧ u.pc.toNat = s.idx.toNat + (0 : Reg).val ∧
      decodeBytes [s.getV 0, s.getV 1] = .ok (.jp 0x20A, []) :=
  ⟨{ two 0 0x12 1 0x0A with status := .ready, pc := 0x208, idx := 0x208 }, _, _, rfl, rfl, rfl, rfl,
    ⟨rfl, rfl, by decide⟩, by decide, by decide⟩

theorem witness_CanonicalMemoriesThatReadAlikeAreEqual :
    Memory.wf [(0x200, 1), (0xFFF, 2)] = true ∧
    (∀ a, Memory.read [(0x200, 1), (0xFFF, 2)] a = Memory.read (((State.reset.mem).write 0xFFF 2).write 0x200 1) a) :=
  ⟨by decide, fun _ => rfl⟩

theorem witness_DrawTogglesTheCoveredPixels :
    SpriteInMemory (indexed 0xFFF) 1 ∧ ¬ SpriteInMemory (indexed 0xFFF) 2 ∧ SpriteInMemory (indexed 0xFFFF) 0 ∧
    Collides (poke oneLit 0x300 0x80) 0 1 1 ∧ ¬ Collides oneLit 0 1 0 := by
  refine ⟨.inr (by decide), ?_, .inl rfl, ⟨60, 31, by decide, by decide⟩, ?_⟩
  · unfold SpriteInMemory
    decide
  · rintro ⟨px, py, h, -⟩
    simp only [covers, Bool.and_eq_true, decide_eq_true_eq] at h
    omega

theorem witness_DrawingTwiceRestoresTheDisplay :
    (14 : Reg) ≠ Reg.vf ∧ (0 : Reg) ≠ Reg.vf ∧ SpriteInMemory (indexed 0xFF1) 15 := ⟨by decide, by decide, .inr (by decide)⟩

theorem witness_KeyWaitTakesTheLowestKeyDown :
    (∀ k : Fin 16, State.reset.keyDown k = false) ∧
    State.keyDown { State.reset with key := keys39 } 3 = true ∧
    ∀ j : Fin 16, j < 3 → State.keyDown { State.reset with key := keys39 } j = false := by decide

theorem witness_KeyWaitRepeatsUntilAKeyIsDown :
    Fetchable (readyAt 0xFFD 0xFF0A) ∧ wordAt (readyAt 0xFFD 0xFF0A) 0xFFD = encodeWord (.ldK 15) ∧
    (∀ k : Fin 16, (readyAt 0xFFD 0xFF0A).keyDown k = false) ∧
    ∃ s : State, Fetchable s ∧ wordAt s s.pc.toNat = encodeWord (.ldK 15) ∧ s.keyDown 3 = true ∧
      ∀ j : Fin 16, j < 3 → s.keyDown j = false :=
  ⟨⟨rfl, rfl, by decide⟩, by decide, by decide, { readyAt 0xFFD 0xFF0A with key := keys39 },
    ⟨rfl, rfl, by decide⟩, by decide, by decide, by decide⟩

theorem witness_TickCountsBothTimersDown : (haltedThen .tick).schedule = .host .tick :: [] := rfl

theorem witness_SetKeypadReplacesTheSnapshot :
    (haltedThen (.setKeypad keys39)).schedule = .host (.setKeypad keys39) :: [] ∧
    ∃ t, exec (.ldK 0) (indexed 0) = .next t := ⟨rfl, _, rfl⟩

/-- A ROM of 3584 bytes, one of 3585, and a ROM offered to a halted engine. -/
theorem witness_LoadRomCopiesOrRejects :
    (∃ s : State, s.schedule = [.host (.loadRom (List.replicate 3584 1))] ∧ s.status = .created ∧
      (List.replicate 3584 (1 : Byte)).length ≤ 3584) ∧
    (∃ s : State, s.schedule = [.host (.loadRom (List.replicate 3585 1))] ∧ s.status = .created ∧
      3584 < (List.replicate 3585 (1 : Byte)).length) ∧
    (haltedThen (.loadRom [])).status ≠ .created :=
  ⟨⟨scheduled (.loadRom (List.replicate 3584 1)), rfl, rfl, by rw [List.length_replicate]⟩,
    ⟨scheduled (.loadRom (List.replicate 3585 1)), rfl, rfl, by rw [List.length_replicate]; decide⟩, by decide⟩

theorem witness_InitLeavesTheResetState : (haltedThen .init).schedule = .host .init :: [] := rfl

/-- The memory of a loaded program that begins with `LD F, V0`, and the last byte of a glyph. -/
theorem witness_GlyphAddressHoldsTheGlyph :
    FontInPlace (copyBytes State.reset.mem 0x200 [0xF0, 0x29]) ∧ 4 < 5 ∧
    ∃ t, FontInPlace State.reset.mem ∧ hostStep (.loadRom [0xF0, 0x29]) State.reset = .next t :=
  ⟨fontInPlace_reset.copyBytes (Nat.le_refl _) _, by decide, _, fontInPlace_reset, rfl⟩

/-- A cycle that reads V0 without a value, and each kind of step that does not: Init, a Tick, a fault, a no-op. -/
theorem witness_TrackedStepIsTheStepOrARefusal :
    ReadsUnwritten ⟨readyAt 0xFFD 0x7001, Written.none⟩ ∧
    (¬ ReadsUnwritten ⟨scheduled .init, Written.none⟩ ∧ ∃ t, step (scheduled .init) = .next t) ∧
    (¬ ReadsUnwritten ⟨scheduled .tick, Written.none⟩ ∧ ∃ t, step (scheduled .tick) = .next t) ∧
    (¬ ReadsUnwritten ⟨readyAt 0xFFE 0x7001, Written.none⟩ ∧
      ∃ t, step (readyAt 0xFFE 0x7001) = .next t ∧ t.status ≠ .ready) ∧
    (¬ ReadsUnwritten ⟨readyAt 0xFFD 0x0000, Written.none⟩ ∧ ∃ t, step (readyAt 0xFFD 0x0000) = .next t) :=
  ⟨⟨rfl, rfl, by decide, .addImm 0 1, by decide, .v 0, by decide, by decide⟩,
    ⟨fun h => absurd h.1 (by decide), _, rfl⟩, ⟨fun h => absurd h.1 (by decide), _, rfl⟩,
    ⟨fun h => absurd h.2.2.1 (by decide), _, rfl, by decide⟩,
    ⟨fun ⟨_, _, _, _, h, _⟩ =>
      (nomatch (show decodeWord 0x0000#16 = .error (.unknownOpcode 0x0000#16) by decide).symm.trans h), _, rfl⟩⟩

/-- `ADD V0, 1` at 0xFFD, where V0 holds no value, and where it does; a CALL that reads no cell and faults. -/
theorem witness_UnwrittenReadsAreRefused :
    Fetchable (readyAt 0xFFD 0x7001) ∧
    decodeBytes [(readyAt 0xFFD 0x7001).mem.read 0xFFD, (readyAt 0xFFD 0x7001).mem.read 0xFFE] = .ok (.addImm 0 1, []) ∧
    (∃ c ∈ cellsRead (.addImm 0 1), Written.none.has c = false) ∧
    (∀ c ∈ cellsRead (.addImm 0 1), (Written.none.mark (.v 0)).has c = true) ∧
    (Fetchable { readyAt 0xFFD 0x2FFD with sp := 16 } ∧ cellsRead (.call 0xFFD) = [] ∧
      ∃ t, step { readyAt 0xFFD 0x2FFD with sp := 16 } = .next t ∧ t.status ≠ .ready) :=
  ⟨⟨rfl, rfl, by decide⟩, by decide, ⟨.v 0, by decide, by decide⟩, by decide,
    ⟨rfl, rfl, by decide⟩, rfl, _, rfl, by decide⟩

end Sys2Proof.Tests
end

section
/-! The encoding family (spec/30_encoding.md): what the decoder can answer, said once (`decodeWord_answers`), the row it
selects, and what a cycle does with a rejected word under each NEAR_MISS_POLICY. -/

namespace Sys2Proof

open Sys2Proof.Machine Sys2Proof.Claims

/-! ### A field equals a value: by number, and in the word it belongs to -/

theorem family_eq_iff {op : Word} {f : BitVec 4} : Field.family op = f ↔ op.toNat / 4096 = f.toNat := by
  rw [← BitVec.toNat_inj, toNat_family]

theorem nnn_eq_iff {op : Word} {nnn : Addr} : Field.nnn op = nnn ↔ op.toNat % 4096 = nnn.toNat := by
  rw [← BitVec.toNat_inj, toNat_fieldNnn]

theorem kk_eq_iff {op : Word} {kk : Byte} : Field.kk op = kk ↔ op.toNat % 256 = kk.toNat := by
  rw [← BitVec.toNat_inj, toNat_fieldKk]

theorem n_eq_iff {op : Word} {n : BitVec 4} : Field.n op = n ↔ op.toNat % 16 = n.toNat := by
  rw [← BitVec.toNat_inj, toNat_fieldN]

section
variable {op : Word} {f : BitVec 4} (hf : Field.family op = f)
include hf

theorem append_nnn_eq {nnn : Addr} (h : Field.nnn op = nnn) : f ++ nnn = op := by
  rw [← hf, ← h, ← eq_nnn]

theorem append_xkk_eq {kk : Byte} (h : Field.kk op = kk) : f ++ regBits (Field.x op) ++ kk = op := by
  rw [← hf, ← h, ← eq_xkk]

theorem append_xyn_eq {n : BitVec 4} (h : Field.n op = n) :
    f ++ regBits (Field.x op) ++ regBits (Field.y op) ++ n = op := by
  rw [← hf, ← h, ← eq_xyn]

end

/-! ### What the decoder can answer -/

/-- `r` is the right answer to the word `op`, where `unknown` says whether it is to be rejected: a well-formed
instruction whose word is `op`, or the rejection (R75, R77). -/
def Answers (op : Word) (unknown : Prop) (r : Except Reject Instr) : Prop :=
  (¬ unknown ∧ ∃ i, r = .ok i ∧ i.wf = true ∧ encodeWord i = op) ∨ (unknown ∧ r = reject op)

theorem Answers.instr {op : Word} {unknown : Prop} {i : Instr} (hu : ¬ unknown) (hwf : i.wf = true)
    (he : encodeWord i = op) : Answers op unknown (.ok i) :=
  .inl ⟨hu, i, rfl, hwf, he⟩

theorem Answers.rejected {op : Word} {unknown : Prop} (hu : unknown) : Answers op unknown (reject op) :=
  .inr ⟨hu, rfl⟩

theorem decodeFamily0_answers {op : Word} (hf : Field.family op = 0x0#4) :
    Answers op (op.toNat % 4096 ≠ 0x0E0 ∧ op.toNat % 4096 ≠ 0x0EE) (decodeFamily0 op) := by
  rw [← toNat_fieldNnn]
  unfold decodeFamily0
  split
  · next h => exact .instr (by rw [h]; decide) rfl (append_nnn_eq hf h)
  · next h => exact .instr (by rw [h]; decide) rfl (append_nnn_eq hf h)
  · next h₁ h₂ => exact .rejected ⟨fun e => h₁ (BitVec.eq_of_toNat_eq e), fun e => h₂ (BitVec.eq_of_toNat_eq e)⟩

theorem decodeFamily8_answers {op : Word} (hf : Field.family op = 0x8#4) :
    Answers op (op.toNat % 16 ∈ [0x8, 0x9, 0xA, 0xB, 0xC, 0xD, 0xF]) (decodeFamily8 op) := by
  rw [← toNat_fieldN]
  unfold decodeFamily8
  split
  case h_10 =>
    refine .rejected ?_
    have := (Field.n op).isLt
    simp [← BitVec.toNat_inj] at *
    omega
  all_goals
    rename_i h
    exact .instr (by rw [h]; decide) rfl (append_xyn_eq hf h)

theorem decodeFamilyE_answers {op : Word} (hf : Field.family op = 0xE#4) :
    Answers op (op.toNat % 256 ≠ 0x9E ∧ op.toNat % 256 ≠ 0xA1) (decodeFamilyE op) := by
  rw [← toNat_fieldKk]
  unfold decodeFamilyE
  split
  · next h => exact .instr (by rw [h]; decide) rfl (append_xkk_eq hf h)
  · next h => exact .instr (by rw [h]; decide) rfl (append_xkk_eq hf h)
  · next h₁ h₂ => exact .rejected ⟨fun e => h₁ (BitVec.eq_of_toNat_eq e), fun e => h₂ (BitVec.eq_of_toNat_eq e)⟩

theorem decodeFamilyF_answers {op : Word} (hf : Field.family op = 0xF#4) :
    Answers op (op.toNat % 256 ∉ [0x07, 0x0A, 0x15, 0x18, 0x1E, 0x29, 0x33, 0x55, 0x65]) (decodeFamilyF op) := by
  unfold decodeFamilyF
  split
  case h_10 => exact .rejected (by simp_all [kk_eq_iff])
  all_goals
    rename_i h
    exact .instr (by rw [← toNat_fieldKk, h]; decide) rfl (append_xkk_eq hf h)

/-- Families 5 and 9: one row, with n = 0. -/
theorem ite_answers {op : Word} {i : Instr} (hwf : i.wf = true) (he : Field.n op = 0#4 → encodeWord i = op) :
    Answers op (op.toNat % 16 ≠ 0) (if Field.n op = 0#4 then .ok i else reject op) := by
  split
  · next h => exact .instr (not_not.mpr (n_eq_iff.mp h)) hwf (he h)
  · next h => exact .rejected fun e => h (n_eq_iff.mpr e)

/-! R77's list, one family at a time. -/

theorem unknownWord_family0 {n : Nat} (h : n / 4096 = 0x0) :
    UnknownWord n ↔ n % 4096 ≠ 0x0E0 ∧ n % 4096 ≠ 0x0EE := by
  simp [UnknownWord, h]

theorem unknownWord_family5_9 {n : Nat} (h : n / 4096 = 0x5 ∨ n / 4096 = 0x9) : UnknownWord n ↔ n % 16 ≠ 0 := by
  rcases h with h | h <;> simp [UnknownWord, h]

theorem unknownWord_family8 {n : Nat} (h : n / 4096 = 0x8) :
    UnknownWord n ↔ n % 16 ∈ [0x8, 0x9, 0xA, 0xB, 0xC, 0xD, 0xF] := by
  simp [UnknownWord, h]

theorem unknownWord_familyE {n : Nat} (h : n / 4096 = 0xE) : UnknownWord n ↔ n % 256 ≠ 0x9E ∧ n % 256 ≠ 0xA1 := by
  simp [UnknownWord, h]

theorem unknownWord_familyF {n : Nat} (h : n / 4096 = 0xF) :
    UnknownWord n ↔ n % 256 ∉ [0x07, 0x0A, 0x15, 0x18, 0x1E, 0x29, 0x33, 0x55, 0x65] := by
  simp [UnknownWord, h]

/-- The families whose every word is an instruction. -/
theorem not_unknownWord {n : Nat} (h : n / 4096 ∈ [0x1, 0x2, 0x3, 0x4, 0x6, 0x7, 0xA, 0xB, 0xC, 0xD]) :
    ¬ UnknownWord n := by
  simp only [List.mem_cons, List.not_mem_nil, or_false] at h
  unfold UnknownWord
  omega

/-- Everything the decoder can answer (R75, R77). The branch of family `k` is the case `h_(k+1)`. -/
theorem decodeWord_answers (op : Word) : Answers op (UnknownWord op.toNat) (decodeWord op) := by
  have known (hf : (Field.family op).toNat ∈ [0x1, 0x2, 0x3, 0x4, 0x6, 0x7, 0xA, 0xB, 0xC, 0xD]) :
      ¬ UnknownWord op.toNat := not_unknownWord (toNat_family op ▸ hf)
  unfold decodeWord
  split
  case h_1 hf => rw [unknownWord_family0 (family_eq_iff.mp hf)]; exact decodeFamily0_answers hf
  case h_6 hf => rw [unknownWord_family5_9 (.inl (family_eq_iff.mp hf))]; exact ite_answers rfl (append_xyn_eq hf)
  case h_9 hf => rw [unknownWord_family8 (family_eq_iff.mp hf)]; exact decodeFamily8_answers hf
  case h_10 hf => rw [unknownWord_family5_9 (.inr (family_eq_iff.mp hf))]; exact ite_answers rfl (append_xyn_eq hf)
  case h_15 hf => rw [unknownWord_familyE (family_eq_iff.mp hf)]; exact decodeFamilyE_answers hf
  case h_16 hf => rw [unknownWord_familyF (family_eq_iff.mp hf)]; exact decodeFamilyF_answers hf
  case h_2 hf | h_3 hf | h_11 hf | h_12 hf =>
    exact .instr (known (by rw [hf]; decide)) rfl (append_nnn_eq hf rfl)
  case h_4 hf | h_5 hf | h_7 hf | h_8 hf | h_13 hf =>
    exact .instr (known (by rw [hf]; decide)) rfl (append_xkk_eq hf rfl)
  case h_14 hf =>
    refine .instr (known (by rw [hf]; decide)) (decide_eq_true (Field.n op).isLt) ?_
    rw [encodeWord, BitVec.ofNat_toNat, BitVec.setWidth_eq]
    exact append_xyn_eq hf rfl
  case h_17 =>
    have := (Field.family op).isLt
    simp [← BitVec.toNat_inj] at *
    omega

/-- A word decodes to no instruction exactly when it is unknown (R77, R83). -/
theorem decodeWord_ne_ok_iff (op : Word) : (∀ i, decodeWord op ≠ .ok i) ↔ UnknownWord op.toNat := by
  rcases decodeWord_answers op with ⟨hk, i, hi, -⟩ | ⟨hu, hr⟩
  · exact ⟨fun h => absurd hi (h i), fun h => absurd h hk⟩
  · exact ⟨fun _ => hu, fun _ i => hr ▸ reject_ne_ok op i⟩

theorem encodeWord_of_decodeWord {op : Word} {i : Instr} (h : decodeWord op = .ok i) : encodeWord i = op := by
  rcases decodeWord_answers op with ⟨-, j, hj, -, he⟩ | ⟨-, hr⟩
  · rw [h] at hj
    cases hj
    exact he
  · exact absurd (hr.symm.trans h) (reject_ne_ok op i)

/-! ### The row a word selects -/

/-- Every instruction's word matches its row (R75). -/
theorem row_matches_encodeWord (i : Instr) : i.row.Matches (encodeWord i) := by
  cases i
  case cls | ret => rfl
  case jp nnn | call nnn | ldI nnn | jpV0 nnn => exact Laws.RowMatch.mask_nnn _ nnn
  case seImm x kk | sneImm x kk | ldImm x kk | addImm x kk | rnd x kk => exact Laws.RowMatch.mask_xkk _ _ kk
  case drw x y n => exact Laws.RowMatch.mask_drw _ _ _ _
  case skp | sknp | ldVxDt | ldK | ldDt | ldSt | addI | ldF | ldB | stRegs | ldRegs =>
    exact Laws.RowMatch.mask_xsub _ _ _
  all_goals exact Laws.RowMatch.mask_xyn _ _ _ _

/-- A field that a row's mask covers is, in every word that matches the row, the row's (R75). -/
theorem Row.Matches.field_eq {w : Nat} {field : Word → BitVec w} {r : Row} {op : Word} (h : r.Matches op)
    (hand : ∀ a b, field (a &&& b) = field a &&& field b) (hm : field r.mask = BitVec.allOnes w) :
    field op = field r.pattern := by
  have := congrArg field h
  rwa [hand, hm, BitVec.and_allOnes] at this

theorem family_and (a b : Word) : Field.family (a &&& b) = Field.family a &&& Field.family b := BitVec.extractLsb'_and
theorem nnn_and (a b : Word) : Field.nnn (a &&& b) = Field.nnn a &&& Field.nnn b := BitVec.extractLsb'_and
theorem kk_and (a b : Word) : Field.kk (a &&& b) = Field.kk a &&& Field.kk b := BitVec.extractLsb'_and
theorem n_and (a b : Word) : Field.n (a &&& b) = Field.n a &&& Field.n b := BitVec.extractLsb'_and

/-- A word that matches the row of an instruction decodes to an instruction of that row (R75): the mask covers the
family and the sub-key, on which the decoder dispatches, so each branch evaluates on the row's own bits. -/
theorem decodeWord_of_row_matches {op : Word} (i : Instr) (h : i.row.Matches op) :
    (decodeWord op).map Instr.row = .ok i.row := by
  have hf : Field.family op = Field.family i.row.pattern :=
    h.field_eq family_and (by cases i <;> simp only [Instr.row] <;> rfl)
  unfold decodeWord
  rw [hf]
  cases i <;> simp only [Instr.row] at h ⊢
  case cls | ret =>
    have hn := h.field_eq nnn_and rfl
    show (decodeFamily0 op).map Instr.row = _
    rw [decodeFamily0, hn]
    rfl
  case seReg | sneReg =>
    have hn := h.field_eq n_and rfl
    rw [hn]
    rfl
  case ldReg | orReg | andReg | xorReg | addReg | sub | shr | subn | shl =>
    have hn := h.field_eq n_and rfl
    show (decodeFamily8 op).map Instr.row = _
    rw [decodeFamily8, hn]
    rfl
  case skp | sknp =>
    have hk := h.field_eq kk_and rfl
    show (decodeFamilyE op).map Instr.row = _
    rw [decodeFamilyE, hk]
    rfl
  case ldVxDt | ldK | ldDt | ldSt | addI | ldF | ldB | stRegs | ldRegs =>
    have hk := h.field_eq kk_and rfl
    show (decodeFamilyF op).map Instr.row = _
    rw [decodeFamilyF, hk]
    rfl
  all_goals rfl

/-- The row selected is the row matched (R75). -/
theorem row_matches_iff {r : Row} (hr : r ∈ opcodeTable) (op : Word) :
    r.Matches op ↔ ∃ i, decodeWord op = .ok i ∧ i.row = r := by
  constructor
  · intro h
    obtain ⟨i, -, rfl⟩ := List.mem_map.mp hr
    have hrow := decodeWord_of_row_matches i h
    cases hd : decodeWord op with
    | error e => rw [hd] at hrow; cases hrow
    | ok j => rw [hd] at hrow; exact ⟨j, rfl, Except.ok.inj hrow⟩
  · rintro ⟨i, hi, rfl⟩
    have := row_matches_encodeWord i
    rwa [encodeWord_of_decodeWord hi] at this

/-- No two rows match the same word: both are the row of the instruction it decodes to (R83). -/
theorem row_eq_of_matches {op : Word} {r r' : Row} (hr : r ∈ opcodeTable) (hr' : r' ∈ opcodeTable)
    (h : r.Matches op) (h' : r'.Matches op) : r = r' := by
  obtain ⟨i, hi, rfl⟩ := (row_matches_iff hr op).mp h
  obtain ⟨j, hj, rfl⟩ := (row_matches_iff hr' op).mp h'
  rw [hi] at hj
  rw [Except.ok.inj hj]

theorem nodup_opcodeTable : opcodeTable.Nodup :=
  List.Nodup.of_map Row.pattern (by decide)

/-! ### Near misses -/

/-- The decoder's test for a near miss is R78's list. -/
theorem isNearMiss_iff (op : Word) : isNearMiss op = true ↔ NearMissWord op.toNat := by
  unfold isNearMiss NearMissWord
  split
  case h_5 =>
    simp only [family_eq_iff, imp_false, BitVec.toNat_ofNat, Bool.false_eq_true, false_iff] at *
    omega
  all_goals
    rename_i hf
    simp [family_eq_iff.mp hf, ← BitVec.toNat_inj, toNat_fieldKk, toNat_fieldN, Fin.ext_iff, val_fieldX, val_fieldY]

theorem NearMissWord.unknown {n : Nat} (h : NearMissWord n) : UnknownWord n := by
  unfold NearMissWord at h
  unfold UnknownWord
  omega

/-- A near miss is rejected as one (R78). -/
theorem decodeWord_nearMiss {op : Word} (h : NearMissWord op.toNat) : decodeWord op = .error (.nearMiss op) := by
  rcases decodeWord_answers op with ⟨hk, -⟩ | ⟨-, hr⟩
  · exact absurd (NearMissWord.unknown h) hk
  · rw [hr, reject, if_pos ((isNearMiss_iff op).mpr h)]

/-- Any other unknown opcode is rejected as unknown (R77). -/
theorem decodeWord_unknown {op : Word} (hu : UnknownWord op.toNat) (hn : ¬ NearMissWord op.toNat) :
    decodeWord op = .error (.unknownOpcode op) := by
  rcases decodeWord_answers op with ⟨hk, -⟩ | ⟨-, hr⟩
  · exact absurd hu hk
  · rw [hr, reject, if_neg (mt (isNearMiss_iff op).mp hn)]

/-! ### What a cycle does with a word, under either policy -/

theorem execute_of_decodeWord {p : NearMissPolicy} {op : Word} {i : Instr} (h : decodeWord op = .ok i) (s : State) :
    execute p op s = exec i s := by
  simp only [execute, h]

theorem execute_noop_of_nearMiss {op : Word} (h : NearMissWord op.toNat) (s : State) :
    execute .noop op s = .next s := by
  simp only [execute, decodeWord_nearMiss h]

theorem execute_refuse_of_nearMiss {op : Word} (h : NearMissWord op.toNat) (s : State) :
    execute .refuse op s = .refused (.nearMissOpcode op) := by
  simp only [execute, decodeWord_nearMiss h]

theorem execute_of_unknown {p : NearMissPolicy} {op : Word} (hu : UnknownWord op.toNat)
    (hn : ¬ NearMissWord op.toNat) (s : State) : execute p op s = .next s := by
  simp only [execute, decodeWord_unknown hu hn]

/-- The policy matters for near misses alone (R78). -/
theorem execute_policy_eq {op : Word} (hn : ¬ NearMissWord op.toNat) (p q : NearMissPolicy) (s : State) :
    execute p op s = execute q op s := by
  rcases decodeWord_answers op with ⟨-, i, hi, -⟩ | ⟨hu, -⟩
  · rw [execute_of_decodeWord hi, execute_of_decodeWord hi]
  · rw [execute_of_unknown hu hn, execute_of_unknown hu hn]

/-! ### The obligations -/

/-- Settles O3: decoding keeps the word, whose fixed bits are its row's, and dispatches on the bits a mask covers. -/
theorem decodeSelectsTheMatchingRow : Obligations.DecodeSelectsTheMatchingRow := by
  unfold Obligations.DecodeSelectsTheMatchingRow
  exact fun op _ hr => row_matches_iff hr op

/-- Settles O4, the third clause because each matching row is the row of the one instruction decoded. -/
theorem rowsOfTheTableAreDisjoint : Obligations.RowsOfTheTableAreDisjoint := by
  unfold Obligations.RowsOfTheTableAreDisjoint
  exact ⟨rfl, nodup_opcodeTable, fun _ _ _ => row_eq_of_matches, decodeWord_ne_ok_iff⟩

/-- Settles O10: a cycle past its fetch is `execute`, which reads the policy for a near miss and nowhere else. -/
theorem nearMissPolicyDecidesNearMissesAlone : Obligations.NearMissPolicyDecidesNearMissesAlone := by
  unfold Obligations.NearMissPolicyDecidesNearMissesAlone
  intro s hs hc hpc
  simp only [stepUnder_of_fetch hs hc hpc]
  exact ⟨fun h => ⟨execute_noop_of_nearMiss h _, execute_refuse_of_nearMiss h _⟩,
    fun h => execute_policy_eq h _ _ _, fun h hu _ => execute_of_unknown hu h _⟩

end Sys2Proof
end

section
/-! The control-flow family (spec/40_control_flow.md): jumps, calls and returns, each from the equation of its handler,
and the call with its return (R110) as two steps of a run. -/

namespace Sys2Proof

open Sys2Proof.Machine Sys2Proof.Claims

/-! ### Calls and returns, in the case that does not raise -/

theorem toNat_ofNat_addr (nnn : Addr) : (BitVec.ofNat 16 nnn.toNat).toNat = nnn.toNat :=
  (BitVec.toNat_ofNat ..).trans (Nat.mod_eq_of_lt (by omega))

/-- A push leaves the pushed address in the slot at sp, and the other slots as they were (R100). -/
theorem slot_of_stack_set {s t : State} {a : Word} (h : s.sp.val < 16) (ht : t.stack = s.stack.set s.sp.val a)
    (k : Fin 16) : t.slot k = if k.val = s.sp.val then a else s.slot k := by
  simp only [State.slot, ht, Vector.getElem_set, eq_comm]

theorem exec_call_of_room (nnn : Addr) {s : State} (h : s.sp.val < 16) :
    exec (.call nnn) s = .next { s with
      pc := BitVec.ofNat 16 nnn.toNat, sp := ⟨s.sp.val + 1, by omega⟩, stack := s.stack.set s.sp.val s.pc } := by
  rw [exec, execCall_eq, dif_pos h]

theorem exec_ret_of_slot {s : State} {k : Fin 16} (hk : s.sp.val = k.val + 1) (hlt : (s.slot k).toNat < 4096) :
    exec .ret s = .next { s with pc := s.slot k, sp := k.castSucc } := by
  have hpred : (⟨s.sp.val - 1, by omega⟩ : Fin 16) = k := Fin.ext (by simp [hk])
  rw [exec, execRet_eq, dif_neg (by omega), hpred, if_pos (show _ < Config.memSize from hlt)]
  simp only [hk, Nat.add_sub_cancel]
  rfl

/-! ### Runs, one step at a time -/

theorem run_succ_of_step {k : Nat} {s t : State} (h : step s = .next t) : core.run (k + 1) s = core.run k t := by
  simp only [Host.Core.run, show core.step s = .next t from h]

/-- A step at a word that decodes is its instruction, run in the state after the fetch (R70). -/
theorem step_of_decodeWord {s : State} {i : Instr} (h : Fetchable s) (hi : decodeWord (wordAt s s.pc.toNat) = .ok i) :
    step s = exec i s.fetched := by
  rw [step_of_fetchable h, execute_of_decodeWord hi]

theorem decodeWord_encodeWord_call (nnn : Addr) : decodeWord (encodeWord (.call nnn)) = .ok (.call nnn) := by
  simp only [encodeWord, decodeWord, family_nnn, nnn_nnn]

/-! ### A call and its return (R110) -/

/-- The state after the CALL at pc: at its target, with the address past the CALL pushed. -/
def called (s : State) (nnn : Addr) (h : s.sp.val < 16) : State :=
  { s with
    pc := BitVec.ofNat 16 nnn.toNat
    sp := ⟨s.sp.val + 1, by omega⟩
    stack := s.stack.set s.sp.val s.fetched.pc }

theorem step_call {s : State} {nnn : Addr} (h : s.sp.val < 16) (hf : Fetchable s)
    (hw : wordAt s s.pc.toNat = encodeWord (.call nnn)) : step s = .next (called s nnn h) := by
  rw [step_of_decodeWord hf (hw ▸ decodeWord_encodeWord_call nnn), exec_call_of_room nnn (show s.fetched.sp.val < 16 from h)]
  rfl

/-- The RET at the target finds the address past the CALL in the slot, and it lies in memory since the fetch passed it. -/
theorem step_ret_called {s : State} {nnn : Addr} (h : s.sp.val < 16) (hf : Fetchable s) (ht : nnn.toNat + 2 < 4096)
    (hw : wordAt s nnn.toNat = encodeWord .ret) :
    step (called s nnn h) =
      .next { s with pc := s.fetched.pc, stack := s.stack.set s.sp.val s.fetched.pc } := by
  have hpc : (called s nnn h).pc.toNat = nnn.toNat := toNat_ofNat_addr nnn
  have hft : Fetchable (called s nnn h) := ⟨hf.ready, hf.nothing_scheduled, hpc ▸ ht⟩
  have hret : decodeWord (wordAt (called s nnn h) (called s nnn h).pc.toNat) = .ok .ret := by
    rw [hpc]
    exact hw ▸ rfl
  have hslot : (called s nnn h).fetched.slot ⟨s.sp.val, h⟩ = s.fetched.pc := by
    rw [slot_of_stack_set (s := s) h rfl, if_pos rfl]
  have hlt : s.fetched.pc.toNat < 4096 := by
    have := hf.pc_lt
    simp only [State.fetched, BitVec.toNat_ofNat]
    omega
  rw [step_of_decodeWord hft hret, exec_ret_of_slot (k := ⟨s.sp.val, h⟩) rfl (hslot ▸ hlt), hslot]
  rfl

/-! ### The obligations -/

/-- Settles O37: the two steps, first the CALL into the state `called`, then the RET out of it. -/
theorem callThenReturnIsARoundTrip : Obligations.CallThenReturnIsARoundTrip := by
  unfold Obligations.CallThenReturnIsARoundTrip
  intro s nnn h hf ht hcall hret
  rw [run_succ_of_step (step_call h hf hcall), run_succ_of_step (step_ret_called h hf ht hret)]
  rfl

/-- Settles O32: a target of 12 bits always lies in memory. -/
theorem jumpSetsPcToItsTarget : Obligations.JumpSetsPcToItsTarget := by
  unfold Obligations.JumpSetsPcToItsTarget
  exact fun s nnn => execJp_eq nnn s

/-- Settles O33: the two branches of the check on the exact sum. -/
theorem jumpPlusV0GoesToTheExactSum : Obligations.JumpPlusV0GoesToTheExactSum := by
  unfold Obligations.JumpPlusV0GoesToTheExactSum
  intro s nnn
  rw [exec, execJpV0_eq]
  exact ⟨fun h => if_pos h, fun h => if_neg (Nat.not_lt.mpr h)⟩

/-- Settles O34: with room the push and the jump, else the violation. -/
theorem callPushesTheReturnAddress : Obligations.CallPushesTheReturnAddress := by
  unfold Obligations.CallPushesTheReturnAddress
  intro s nnn
  constructor
  · intro hroom
    exact ⟨_, exec_call_of_room nnn hroom, toNat_ofNat_addr nnn, rfl, slot_of_stack_set hroom rfl, rfl⟩
  · intro hfull
    rw [exec, execCall_eq, dif_neg (by omega)]
    rfl

/-- Settles O35: with a return address on the stack the pop and the jump, else the violation. -/
theorem returnPopsTheReturnAddress : Obligations.ReturnPopsTheReturnAddress := by
  unfold Obligations.ReturnPopsTheReturnAddress
  intro s
  constructor
  · intro k hk hlt
    exact ⟨_, exec_ret_of_slot hk hlt, rfl, rfl, rfl⟩
  · intro hempty
    rw [exec, execRet_eq, dif_pos hempty]
    rfl

end Sys2Proof
end

section
/-! The ALU family (spec/41_alu.md): every instruction of it ends in one `setV` or one `setFlagged`, so what it leaves
unchanged is said once, and each value and each flag is a fact about bytes. -/

namespace Sys2Proof

open Sys2Proof.Machine Sys2Proof.Claims

/-! ### Writing a register, and writing VF and then a register -/

theorem onlyRegsChange_of_v (s : State) (v : Vector Byte 16) : OnlyRegsChange s { s with v := v } :=
  ⟨rfl, rfl, ⟨rfl, rfl⟩, rfl, fun _ => rfl, ⟨rfl, rfl, rfl, rfl, rfl⟩⟩

theorem regsKept_setV (s : State) (x : Reg) (b : Byte) : RegsKept [x] s (s.setV x b) :=
  fun _ hr => getV_setV_ne s b (List.ne_of_not_mem_cons hr)

theorem regsKept_setFlagged (s : State) (x : Reg) (f b : Byte) : RegsKept [x, Reg.vf] s (s.setFlagged x f b) := by
  intro r hr
  obtain ⟨hx, hvf⟩ : r ≠ x ∧ r ≠ Reg.vf := by simpa using hr
  rw [getV_setFlagged, if_neg hx, if_neg hvf]

section
variable {i : Instr} {s : State} {x : Reg} {b : Byte}

theorem writesReg_of_setV {n : Nat} (h : exec i s = .next (s.setV x b)) (hb : b.toNat = n) : WritesReg i s x n :=
  ⟨_, h, by rw [getV_setV_self, hb], regsKept_setV s x b, onlyRegsChange_of_v s _, rfl⟩

theorem writesRegBits_of_setV {f : Nat → Bool} (h : exec i s = .next (s.setV x b)) (hb : ∀ k, b.getLsbD k = f k) :
    WritesRegBits i s x f :=
  ⟨_, h, fun k _ => by rw [getV_setV_self, hb], regsKept_setV s x b, onlyRegsChange_of_v s _, rfl⟩

/-- The flag reaches VF only where x is not F: the result is written after it (R22). -/
theorem writesRegAndFlag_of_setFlagged {f : Byte} {n flag : Nat} (h : exec i s = .next (s.setFlagged x f b))
    (hb : b.toNat = n) (hf : f.toNat = flag) : WritesRegAndFlag i s x n flag := by
  refine ⟨_, h, ?_, fun hx => ?_, regsKept_setFlagged s x f b, onlyRegsChange_of_v s _, rfl⟩
  · rw [getV_setFlagged, if_pos rfl, hb]
  · rw [getV_setFlagged, if_neg hx.symm, if_pos rfl, hf]

end

/-! ### The flags and the results, by number -/

theorem toNat_flagByte (c : Prop) [Decidable c] : (flagByte (decide c)).toNat = if c then 1 else 0 := by
  by_cases hc : c <;> simp [flagByte, hc]

theorem toNat_carryFlag (a b : Byte) : (carryFlag a b).toNat = if a.toNat + b.toNat > 255 then 1 else 0 :=
  toNat_flagByte _

theorem toNat_greaterFlag (a b : Byte) : (greaterFlag a b).toNat = if a.toNat > b.toNat then 1 else 0 :=
  toNat_flagByte _

theorem toNat_shiftedOutRight (a : Byte) : (shiftedOutRight a).toNat = a.toNat % 2 :=
  (BitVec.toNat_and a 1).trans (Nat.and_one_is_mod _)

/-- The mask of 8xyE takes nothing away: after a shift by 7 only bit 7 is left (R132). -/
theorem toNat_shiftedOutLeft (a : Byte) : (shiftedOutLeft a).toNat = a.toNat / 128 := by
  have hand : (shiftedOutLeft a).toNat = (a >>> 7).toNat % 2 := toNat_shiftedOutRight (a >>> 7)
  rw [hand, BitVec.toNat_ushiftRight, Nat.shiftRight_eq_div_pow]
  omega

theorem toNat_sub_byte (a b : Byte) : (a - b).toNat = (256 + a.toNat - b.toNat) % 256 := by
  rw [BitVec.toNat_sub]
  omega

theorem toNat_shiftRight_one (a : Byte) : (a >>> 1).toNat = a.toNat / 2 := by
  rw [BitVec.toNat_ushiftRight, Nat.shiftRight_eq_div_pow, Nat.pow_one]

theorem toNat_shiftLeft_one (a : Byte) : (a <<< 1).toNat = a.toNat * 2 % 256 := by
  rw [BitVec.toNat_shiftLeft, Nat.shiftLeft_eq, Nat.pow_one]

/-! ### The obligations -/

/-- Settles O25: each of the three is one `setV`, of the operand itself. -/
theorem loadsPutTheirOperandInTheRegister : Obligations.LoadsPutTheirOperandInTheRegister := by
  unfold Obligations.LoadsPutTheirOperandInTheRegister
  exact fun _ _ _ _ => ⟨writesReg_of_setV rfl rfl, writesReg_of_setV rfl rfl, writesReg_of_setV rfl rfl⟩

/-- Settles O26: the sum of bytes is the sum modulo 256, and the write is a `setV` with no flag. -/
theorem addImmediateWrapsAndSetsNoFlag : Obligations.AddImmediateWrapsAndSetsNoFlag := by
  unfold Obligations.AddImmediateWrapsAndSetsNoFlag
  exact fun _ _ _ => writesReg_of_setV rfl (BitVec.toNat_add _ _)

/-- Settles O27: the three operations of bytes act bit by bit, and the write is a `setV` with no flag. -/
theorem logicActsBitByBitAndSetsNoFlag : Obligations.LogicActsBitByBitAndSetsNoFlag := by
  unfold Obligations.LogicActsBitByBitAndSetsNoFlag
  exact fun _ _ _ => ⟨writesRegBits_of_setV rfl fun _ => BitVec.getLsbD_or,
    writesRegBits_of_setV rfl fun _ => BitVec.getLsbD_and, writesRegBits_of_setV rfl fun _ => BitVec.getLsbD_xor⟩

/-- Settles O28: one `setFlagged` of the sum modulo 256 and the carry. -/
theorem addSetsTheCarry : Obligations.AddSetsTheCarry := by
  unfold Obligations.AddSetsTheCarry
  exact fun _ _ _ => writesRegAndFlag_of_setFlagged rfl (BitVec.toNat_add _ _) (toNat_carryFlag _ _)

/-- Settles O29: the two are one `setFlagged` of the difference and the comparison, with the operands exchanged. -/
theorem subtractSetsTheStrictGreaterFlag : Obligations.SubtractSetsTheStrictGreaterFlag := by
  unfold Obligations.SubtractSetsTheStrictGreaterFlag
  exact fun _ _ _ => ⟨writesRegAndFlag_of_setFlagged rfl (toNat_sub_byte _ _) (toNat_greaterFlag _ _),
    writesRegAndFlag_of_setFlagged rfl (toNat_sub_byte _ _) (toNat_greaterFlag _ _)⟩

/-- Settles O30: one `setFlagged` of V[x] shifted and the bit shifted out; no operand is V[y]. -/
theorem shiftsSetTheBitShiftedOut : Obligations.ShiftsSetTheBitShiftedOut := by
  unfold Obligations.ShiftsSetTheBitShiftedOut
  exact fun _ _ _ => ⟨writesRegAndFlag_of_setFlagged rfl (toNat_shiftRight_one _) (toNat_shiftedOutRight _),
    writesRegAndFlag_of_setFlagged rfl (toNat_shiftLeft_one _) (toNat_shiftedOutLeft _)⟩

end Sys2Proof
end

section
/-! The index and memory family (spec/42_index_memory.md): the four index-addressed instructions raise under one
condition, said once (`exec_indexed`); what a store or a load leaves where it does not raise is read byte by byte. -/

namespace Sys2Proof

open Sys2Proof.Machine Sys2Proof.Claims

/-! ### The condition under which an index-addressed instruction raises (R147) -/

section
variable {i : Instr} {count : Nat} (h : indexCount i = some count)
include h

/-- Everything an index-addressed instruction can do: with its last byte in memory it ends in a state of the same status,
else it raises MEM_RANGE of the first address outside. -/
theorem exec_indexed (s : State) :
    ∃ t, exec i s =
        (if count = 0 ∨ s.indexBase + count ≤ Config.memSize then .next t
          else .next (s.haltAt s.instrAddr ⟨.memRange, max s.indexBase Config.memSize⟩)) ∧
      t.status = s.status := by
  have fits_iff {n : Nat} : s.indexBase + (n + 1) ≤ Config.memSize ↔
      n + 1 = 0 ∨ s.indexBase + (n + 1) ≤ Config.memSize := (or_iff_right (Nat.succ_ne_zero n)).symm
  cases i <;> cases h
  case drw x y => exact ⟨_, execDrw_eq x y count s, rfl⟩
  case ldB x => exact ⟨_, (execLdB_eq x s).trans (if_congr fits_iff rfl rfl), rfl⟩
  case stRegs x => exact ⟨_, (execStRegs_eq x s).trans (if_congr fits_iff rfl rfl), rfl⟩
  case ldRegs x => exact ⟨_, (execLdRegs_eq x s).trans (if_congr fits_iff rfl rfl), rfl⟩

theorem exec_indexed_outside {s : State} (hout : 1 ≤ count ∧ 4096 ≤ s.idx.toNat + count - 1) :
    exec i s = .next { s with pc := s.instrAddr, status := .halted .memRange (max s.idx.toNat 4096) } := by
  obtain ⟨t, ht, -⟩ := exec_indexed h s
  rw [ht, if_neg (by simp only [State.indexBase, Config.memSize]; omega)]
  rfl

theorem exec_indexed_inside {s : State} (hin : ¬ (1 ≤ count ∧ 4096 ≤ s.idx.toNat + count - 1)) :
    ∃ t, exec i s = .next t ∧ t.status = s.status := by
  obtain ⟨t, ht, hst⟩ := exec_indexed h s
  exact ⟨t, by rw [ht, if_pos (by simp only [State.indexBase, Config.memSize]; omega)], hst⟩

end

/-! ### The bytes stored and the registers loaded -/

theorem read_copyBytes_add {m : Memory} {a k : Nat} {bs : List Byte} (h : k < bs.length) :
    (copyBytes m a bs).read (a + k) = bs[k] := by
  simp [read_copyBytes, h]

theorem memKeptOutside_copyBytes (s : State) (a : Nat) (bs : List Byte) :
    MemKeptOutside a bs.length s { s with mem := copyBytes s.mem a bs } := by
  intro b hb
  exact (read_copyBytes s.mem a bs b).trans (dif_neg (by omega))

theorem getElem_regsUpTo {s : State} {x r : Reg} (h : r.val < (s.regsUpTo x).length) :
    (s.regsUpTo x)[r.val] = s.getV r := by
  simp [State.regsUpTo, State.getV]

/-- Bytes of memory from `a` on, written to the registers from V0 on: register `r` gets byte `a + r`, and the registers
past the last byte are kept. -/
theorem getV_setRegs_read (s : State) (a n : Nat) (r : Reg) :
    State.getV { s with v := setRegs s.v 0 ((List.range' a n).map s.mem.read) } r =
      if r.val < n then s.mem.read (a + r.val) else s.getV r := by
  simp [State.getV, getElem_setRegs]

/-! ### Values of I, and decimal digits, by number -/

theorem indexOf_eq_ofNat (nnn : Addr) : indexOf nnn = BitVec.ofNat 16 nnn.toNat :=
  BitVec.eq_of_toNat_eq (by simp [indexOf])

theorem add_zeroExtend_eq_ofNat (a : Word) (b : Byte) :
    a + b.zeroExtend 16 = BitVec.ofNat 16 ((a.toNat + b.toNat) % 65536) :=
  BitVec.eq_of_toNat_eq (by simp)

/-- The address of a glyph does not wrap, since the font ends below ENTRY (R6, R142). -/
theorem toNat_glyphAddr {d : Nat} (hd : d < 16) : (glyphAddr d).toNat = fontBase + d * 5 := by
  have hfont : fontBase + 80 ≤ 0x200 := fontBase_add_le
  rw [glyphAddr, BitVec.toNat_ofNat]
  omega

theorem toNat_ofNat_byte {n : Nat} (h : n < 256) : (BitVec.ofNat 8 n).toNat = n :=
  (BitVec.toNat_ofNat ..).trans (Nat.mod_eq_of_lt h)

/-! ### The obligations -/

/-- Settles O19: the two branches of `exec_indexed`. -/
theorem indexAccessFaultsExactlyOutsideMemory : Obligations.IndexAccessFaultsExactlyOutsideMemory := by
  unfold Obligations.IndexAccessFaultsExactlyOutsideMemory
  exact fun _ _ _ h hs => ⟨exec_indexed_outside h, fun hin => hs ▸ exec_indexed_inside h hin⟩

/-- Settles O39: each of the three writes I alone, and the value it writes is a fact about words. -/
theorem indexInstructionsWriteTheIndexAlone : Obligations.IndexInstructionsWriteTheIndexAlone := by
  unfold Obligations.IndexInstructionsWriteTheIndexAlone
  intro s x nnn
  refine ⟨?_, ?_, _, rfl, rfl, toNat_glyphAddr (s.lowNibble x).isLt, fontBase_add_le⟩
  · rw [exec, execLdI, indexOf_eq_ofNat]
  · rw [exec, execAddI, add_zeroExtend_eq_ofNat]

/-- Settles O40: the three digits are copied to I and on, each of them a byte. -/
theorem bcdStoresThreeDigits : Obligations.BcdStoresThreeDigits := by
  unfold Obligations.BcdStoresThreeDigits
  intro s x
  constructor
  · intro hin
    have hb := (s.getV x).isLt
    have digit (k : Nat) (hk : k < 3) :=
      read_copyBytes_add (m := s.mem) (a := s.indexBase) (bs := bcdDigits (s.getV x)) hk
    refine ⟨_, (execLdB_eq x s).trans (if_pos (show s.idx.toNat + 3 ≤ 4096 by omega)), ?_, ?_, ?_,
      memKeptOutside_copyBytes s _ (bcdDigits (s.getV x)), rfl⟩
    · exact (congrArg BitVec.toNat (digit 0 (by decide))).trans (toNat_ofNat_byte (by omega))
    · exact (congrArg BitVec.toNat (digit 1 (by decide))).trans (toNat_ofNat_byte (by omega))
    · exact (congrArg BitVec.toNat (digit 2 (by decide))).trans (toNat_ofNat_byte (by omega))
  · exact fun hout => exec_indexed_outside rfl ⟨by omega, by omega⟩

/-- Settles O41: V0 to Vx are copied to I and on, byte `r` of them being V[r]. -/
theorem storeRegistersWritesThemInOrder : Obligations.StoreRegistersWritesThemInOrder := by
  unfold Obligations.StoreRegistersWritesThemInOrder
  intro s x
  constructor
  · intro hin
    refine ⟨_, (execStRegs_eq x s).trans (if_pos (show s.idx.toNat + (x.val + 1) ≤ 4096 by omega)), fun r hr => ?_,
      length_regsUpTo s x ▸ memKeptOutside_copyBytes s _ (s.regsUpTo x), rfl⟩
    have hlen : r.val < (s.regsUpTo x).length := length_regsUpTo s x ▸ Nat.lt_succ_of_le hr
    exact (read_copyBytes_add hlen).trans (getElem_regsUpTo hlen)
  · exact fun hout => exec_indexed_outside rfl ⟨by omega, by omega⟩

/-- Settles O42: the bytes from I on are written to V0 to Vx, and the load is one write of the registers. -/
theorem loadRegistersReadsThemInOrder : Obligations.LoadRegistersReadsThemInOrder := by
  unfold Obligations.LoadRegistersReadsThemInOrder
  intro s x
  constructor
  · intro hin
    refine ⟨_, (execLdRegs_eq x s).trans (if_pos (show s.idx.toNat + (x.val + 1) ≤ 4096 by omega)), fun r hr => ?_,
      fun r hr => ?_, onlyRegsChange_of_v s _, rfl⟩
    · exact (getV_setRegs_read s _ _ r).trans (if_pos (Nat.lt_succ_of_le hr))
    · exact (getV_setRegs_read s _ _ r).trans (if_neg (Nat.not_lt.mpr hr))
  · exact fun hout => exec_indexed_outside rfl ⟨by omega, by omega⟩

end Sys2Proof
end

section
/-! The display family (spec/43_display.md): what a whole Dxyn leaves on the canvas is `drawn`, tied here to the pixels the
claims call covered and to the collision; the obligations read it. -/

namespace Sys2Proof

open Sys2Proof.Machine Sys2Proof.Claims

/-! ### The pixels a sprite toggles and the collision -/

/-- In the sprite's rows as they were read, row `k` is the byte at `a + k` (R165). -/
theorem getD_map_read_range' (m : Memory) {a n k : Nat} (h : k < n) :
    ((List.range' a n).map m.read).getD k 0 = m.read (a + k) := by
  simp [List.getD_eq_getElem?_getD, h]

/-- Dxyn draws exactly the covered pixels (R161, R163, R165). -/
theorem draws_drawn (s : State) (x y : Reg) (n : Nat) :
    Draws (covers s x y n) ⟨s.disp, false⟩ (drawn s x y n) := by
  refine (draws_drawRows _ _ _ _).congr fun px py => ?_
  simp only [covers, State.originX, State.originY, State.indexBase, List.length_map, List.length_range', spriteBit]
  by_cases hrow : (s.getV y).toNat % 32 ≤ py ∧ py < (s.getV y).toNat % 32 + n
  · rw [getD_map_read_range' s.mem (by omega)]
    simp [hrow, Bool.and_assoc]
  · simp [hrow]

theorem pixel_drawn (s : State) (x y : Reg) (n px py : Nat) :
    pixel (drawn s x y n).disp px py = (pixel s.disp px py ^^ covers s x y n px py) :=
  (draws_drawn s x y n).1 px py

theorem hit_drawn_iff (s : State) (x y : Reg) (n : Nat) : (drawn s x y n).hit = true ↔ Collides s x y n :=
  (draws_drawn s x y n).2.trans (or_iff_right Bool.false_ne_true)

theorem collisionFlag_drawn_of_collides {s : State} {x y : Reg} {n : Nat} (h : Collides s x y n) :
    collisionFlag (drawn s x y n).hit = 1 := by
  rw [(hit_drawn_iff s x y n).mpr h]
  rfl

theorem collisionFlag_drawn_of_not_collides {s : State} {x y : Reg} {n : Nat} (h : ¬ Collides s x y n) :
    collisionFlag (drawn s x y n).hit = 0 := by
  rw [Bool.eq_false_of_not_eq_true (mt (hit_drawn_iff s x y n).mp h)]
  rfl

theorem drawn_zero (s : State) (x y : Reg) : drawn s x y 0 = ⟨s.disp, false⟩ := rfl

/-! ### Where the instruction completes -/

theorem exec_drw_of_spriteInMemory {s : State} (x y : Reg) {n : Nat} (h : SpriteInMemory s n) :
    exec (.drw x y n) s =
      .next { s.setV Reg.vf (collisionFlag (drawn s x y n).hit) with disp := (drawn s x y n).disp } :=
  (execDrw_eq x y n s).trans (if_pos h)

/-! ### The obligations -/

/-- Settles O46: inside memory the canvas is `drawn`, with VF its collision; outside it Dxyn raises as every
index-addressed instruction does. -/
theorem drawTogglesTheCoveredPixels : Obligations.DrawTogglesTheCoveredPixels := by
  unfold Obligations.DrawTogglesTheCoveredPixels
  intro s x y n
  constructor
  · intro hin
    refine ⟨_, exec_drw_of_spriteInMemory x y hin, pixel_drawn s x y n, fun hc => ?_, fun hc => ?_,
      regsKept_setV s Reg.vf _, rfl⟩
    · exact (getV_setV_self s Reg.vf _).trans (collisionFlag_drawn_of_collides hc)
    · exact (getV_setV_self s Reg.vf _).trans (collisionFlag_drawn_of_not_collides hc)
  · intro hout
    unfold SpriteInMemory at hout
    exact exec_indexed_outside rfl ⟨by omega, by omega⟩

/-- Settles O45: the display 00E0 writes is the blank one. -/
theorem clearTurnsEveryPixelOff : Obligations.ClearTurnsEveryPixelOff := by
  unfold Obligations.ClearTurnsEveryPixelOff
  exact fun _ => ⟨_, rfl, pixel_blankDisplay, rfl⟩

/-- Settles O47: a sprite of no rows lies in memory wherever I points, and its canvas is the display with no collision. -/
theorem drawOfNoRowsClearsTheFlag : Obligations.DrawOfNoRowsClearsTheFlag := by
  unfold Obligations.DrawOfNoRowsClearsTheFlag
  intro s x y
  rw [exec_drw_of_spriteInMemory x y (.inl rfl), drawn_zero]
  rfl

end Sys2Proof
end

section
/-! The keypad family (spec/44_keypad.md): Fx0A by the answer of the search for the lowest key down, and the snapshot,
which a SetKeypad replaces and no instruction writes. -/

namespace Sys2Proof

open Sys2Proof.Machine Sys2Proof.Claims

/-! ### The lowest key down and Fx0A (R182) -/

/-- The converse of `lowestKeyDown_eq_some`: the search meets the keys in order, so it stops at `k`. -/
theorem lowestKeyDown_of_lowest {s : State} {k : Fin 16} (hk : s.keyDown k = true)
    (hlow : ∀ j : Fin 16, j < k → s.keyDown j = false) : lowestKeyDown s = some k := by
  rw [lowestKeyDown, List.find?_eq_some_iff_getElem]
  refine ⟨hk, k.val, by simp, by simp, fun j hj => ?_⟩
  simpa using hlow ⟨j, by omega⟩ hj

theorem exec_ldK_of_none (x : Reg) {s : State} (h : lowestKeyDown s = none) :
    exec (.ldK x) s = .next { s with pc := s.instrAddr } := by
  rw [exec, execLdK, h]

theorem exec_ldK_of_some (x : Reg) {s : State} {k : Fin 16} (h : lowestKeyDown s = some k) :
    exec (.ldK x) s = .next (s.setV x (BitVec.ofNat 8 k.val)) := by
  rw [exec, execLdK, h]

/-! ### The snapshot (R183) -/

/-- A completed instruction and a raised violation both keep the snapshot (R32, R205). -/
theorem key_of_exec {i : Instr} {s t : State} (h : exec i s = .next t) : t.key = s.key := by
  rcases exec_cases i s with ⟨u, hu, -, hkey, -⟩ | ⟨e, he⟩
  · cases hu.symm.trans h
    exact hkey
  · cases he.symm.trans h
    exact haltAt_key s s.instrAddr e

/-! ### The obligations -/

/-- Settles O51: with no key down the search finds none, else it finds `k`, which is one `setV` of a byte. -/
theorem keyWaitTakesTheLowestKeyDown : Obligations.KeyWaitTakesTheLowestKeyDown := by
  unfold Obligations.KeyWaitTakesTheLowestKeyDown
  intro s x
  constructor
  · intro hup
    exact exec_ldK_of_none x (lowestKeyDown_eq_none.mpr hup)
  · intro k hk hlow
    exact writesReg_of_setV (exec_ldK_of_some x (lowestKeyDown_of_lowest hk hlow)) (toNat_ofNat_byte (by omega))

/-- Settles O55: the scheduled event is the whole step, and every outcome of an instruction keeps the snapshot. -/
theorem setKeypadReplacesTheSnapshot : Obligations.SetKeypadReplacesTheSnapshot := by
  unfold Obligations.SetKeypadReplacesTheSnapshot
  exact ⟨fun _ _ _ hsched => stepUnder_of_cons hsched, fun _ _ _ => key_of_exec⟩

end Sys2Proof
end

section
/-! The timer family (spec/45_timers.md): each of Fx15 and Fx18 is one update of its counter. -/

namespace Sys2Proof

open Sys2Proof.Machine

/-! ### The two loads (R191, R192) -/

theorem exec_ldDt (x : Reg) (s : State) : exec (.ldDt x) s = .next { s with dt := s.getV x } := rfl

theorem exec_ldSt (x : Reg) (s : State) : exec (.ldSt x) s = .next { s with st := s.getV x } := rfl

/-! ### The obligation -/

/-- Settles O53: the state each load completes in is `s` with V[x] in the one counter. -/
theorem timerLoadsCopyTheRegister : Obligations.TimerLoadsCopyTheRegister := by
  unfold Obligations.TimerLoadsCopyTheRegister
  intro s x
  constructor
  · exact ⟨_, exec_ldDt x s, rfl, rfl⟩
  · exact ⟨_, exec_ldSt x s, rfl, rfl⟩

end Sys2Proof
end

section
/-! The exceptions family (spec/60_exceptions.md): what a cycle in Ready can lead to, said once (`cycle_eq_next_of_ready`):
it stays Ready, or it is the state it started in with the status alone changed. -/

namespace Sys2Proof

open Sys2Proof.Machine

/-! ### The state an exception leaves (R205, R206) -/

/-- An exception puts back the pc that the fetch advanced, the one write it made before the instruction ran. -/
theorem haltAt_fetched {s : State} (h : s.pc.toNat + 2 < Config.memSize) (e : Violation) :
    s.fetched.haltAt s.fetched.instrAddr e = s.haltAt s.pc e := by
  rw [instrAddr_fetched h]
  rfl

/-! ### What a step of the engine can end in -/

/-- An opcode that ends in a next state keeps the status, or raises and commits nothing. -/
theorem execute_eq_next {p : NearMissPolicy} {op : Word} {s t : State} (h : execute p op s = .next t) :
    t.status = s.status ∨ ∃ e, t = s.haltAt s.instrAddr e := by
  unfold execute at h
  split at h
  case h_1 i _ =>
    rcases exec_cases i s with ⟨u, hu, hst, -, -⟩ | ⟨e, he⟩
    · cases hu.symm.trans h
      exact .inl hst
    · cases he.symm.trans h
      exact .inr ⟨e, rfl⟩
  case h_2 =>
    cases p <;> cases h
    exact .inl rfl
  all_goals
    cases h
    exact .inl rfl

/-- A cycle in Ready that ends in a next state stays Ready, or raises, in the fetch or in the instruction, and leaves the
state it started in with the status alone changed (R206). -/
theorem cycle_eq_next_of_ready {p : NearMissPolicy} {s t : State} (hs : s.status = .ready) (h : cycle p s = .next t) :
    t.status = .ready ∨ ∃ e, t = s.haltAt s.pc e := by
  rcases cycle_cases_of_ready (p := p) hs with ⟨e, -, he⟩ | ⟨hpc, hrun⟩
  · cases he.symm.trans h
    exact .inr ⟨e, rfl⟩
  · rcases execute_eq_next (hrun.symm.trans h) with hst | ⟨e, rfl⟩
    · exact .inl (hst.trans hs)
    · exact .inr ⟨e, haltAt_fetched hpc e⟩

/-! ### The obligation -/

/-- Settles O13: the cycle runs with itself taken off the schedule, and of its two ends only the raise is Halted. -/
theorem faultingCycleCommitsNothing : Obligations.FaultingCycleCommitsNothing := by
  unfold Obligations.FaultingCycleCommitsNothing
  intro s t c n hs hc hstep ht
  rw [step, stepUnder_of_cycle hc] at hstep
  rcases cycle_eq_next_of_ready (s := { s with schedule := s.schedule.tail }) hs hstep with hready | ⟨e, rfl⟩
  · cases hready.symm.trans ht
  · cases ht
    rfl

end Sys2Proof
end

section
/-! Encoding and decoding (spec/30_encoding.md R71 to R78): the two are inverse to each other on well-formed
instructions, and a rejected word is rejected under its own name. -/

namespace Sys2Proof

open Sys2Proof.Machine Sys2Proof.Claims

/-! ### Decoding what was encoded -/

/-- Each format's fields read back as the operands put in them, and the family and sub-key lead to the instruction's
own branch. The height of Dxyn is the one operand that its type does not fit to its field (R72, R73). -/
theorem decodeWord_encodeWord {i : Instr} (h : i.wf = true) : decodeWord (encodeWord i) = .ok i := by
  cases i
  case cls | ret => rfl
  case jp | call | ldI | jpV0 => simp only [encodeWord, decodeWord, family_nnn, nnn_nnn]
  case seImm | sneImm | ldImm | addImm | rnd => simp only [encodeWord, decodeWord, family_xkk, x_xkk, kk_xkk]
  case seReg | sneReg => simp only [encodeWord, decodeWord, family_xyn, x_xyn, y_xyn, n_xyn, if_true]
  case ldReg | orReg | andReg | xorReg | addReg | sub | shr | subn | shl =>
    simp only [encodeWord, decodeWord, decodeFamily8, family_xyn, x_xyn, y_xyn, n_xyn]
  case drw x y n =>
    have hn : (BitVec.ofNat 4 n).toNat = n := Nat.mod_eq_of_lt (of_decide_eq_true h)
    simp only [encodeWord, decodeWord, family_xyn, x_xyn, y_xyn, n_xyn, hn]
  case skp | sknp => simp only [encodeWord, decodeWord, decodeFamilyE, family_xkk, x_xkk, kk_xkk]
  case ldVxDt | ldK | ldDt | ldSt | addI | ldF | ldB | stRegs | ldRegs =>
    simp only [encodeWord, decodeWord, decodeFamilyF, family_xkk, x_xkk, kk_xkk]

/-- A word that decodes does so to a well-formed instruction (R73). -/
theorem wf_of_decodeWord {op : Word} {i : Instr} (h : decodeWord op = .ok i) : i.wf = true := by
  rcases decodeWord_answers op with ⟨-, j, hj, hwf, -⟩ | ⟨-, hr⟩
  · cases h.symm.trans hj
    exact hwf
  · exact absurd (hr.symm.trans h) (reject_ne_ok op i)

/-! ### The obligations -/

/-- Settles O1: the two bytes make the word again, and the word decodes to its instruction. -/
theorem decodeOfEncodeIsTheInstruction : Obligations.DecodeOfEncodeIsTheInstruction := by
  unfold Obligations.DecodeOfEncodeIsTheInstruction
  intro i rest hwf
  refine decodeBytes_eq_ok.mpr ⟨?_, rfl⟩
  rw [opcodeOfBytes_bytesOfOpcode]
  exact decodeWord_encodeWord hwf

/-- Settles O2: both are read off the one inversion of the decoder, `decodeWord_answers`. -/
theorem encodeOfDecodeIsTheWord : Obligations.EncodeOfDecodeIsTheWord := by
  unfold Obligations.EncodeOfDecodeIsTheWord
  exact fun _ _ h => ⟨wf_of_decodeWord h, encodeWord_of_decodeWord h⟩

/-- Settles O5: the decoder rejects what R77 lists, and its test for the name is R78's list. -/
theorem rejectedWordsAreTheUnknownOpcodes : Obligations.RejectedWordsAreTheUnknownOpcodes := by
  unfold Obligations.RejectedWordsAreTheUnknownOpcodes
  intro op
  refine ⟨fun hk => ?_, fun _ => decodeWord_nearMiss, decodeWord_unknown, NearMissWord.unknown⟩
  by_contra hno
  exact hk ((decodeWord_ne_ok_iff op).mp fun i hi => hno ⟨i, hi⟩)

/-- Settles O6: the decoder evaluates on each of the nineteen words. -/
theorem wordsOfEachFamilyDecode : Obligations.WordsOfEachFamilyDecode := by
  unfold Obligations.WordsOfEachFamilyDecode
  decide

end Sys2Proof
end

section
/-! What an instruction can end in, said once for all 34 (`exec_eq`): it raises what `raisedIn` says, or leaves the
state `completed`. The whole-machine rules are read off these two functions, case by case. -/

namespace Sys2Proof

open Sys2Proof.Machine Sys2Proof.Claims

/-! ### Raised, or completed -/

/-- The slot that a return takes its address from. -/
def topSlot (s : State) : Word := s.slot ⟨s.sp.val - 1, by omega⟩

/-- What an instruction raises in any state: R202's table, and PC_RANGE for a RET to a slot that holds no pc, which the
invariant of R41 rules out (`raisedIn_eq_raisedBy`; log entry 13). -/
def raisedIn (i : Instr) (s : State) : Option Violation :=
  match i with
  | .ret =>
    if s.sp.val = 0 then some ⟨.stackUnderflow, s.instrAddr.toNat⟩
    else if 4096 ≤ (topSlot s).toNat then some ⟨.pcRange, (topSlot s).toNat⟩ else none
  | i => raisedBy i s

/-- The state a skip leaves where it does not raise. -/
def skipped (c : Bool) (s : State) : State := { s with pc := if c then BitVec.ofNat 16 (s.pc.toNat + 2) else s.pc }

/-- The next state of an outcome; `s` where there is none. -/
def nextStateOr (s : State) : Out → State
  | .next t => t
  | .fault _ | .refused _ => s

/-- The state an instruction leaves where it does not raise. The instructions of the last arm never do, so theirs is
what `exec` answers. -/
def completed (i : Instr) (s : State) : State :=
  match i with
  | .ret => { s with pc := topSlot s, sp := ⟨s.sp.val - 1, by omega⟩ }
  | .call nnn =>
    { s with
      pc := BitVec.ofNat 16 nnn.toNat, sp := ⟨min (s.sp.val + 1) 16, by omega⟩,
      stack := s.stack.setIfInBounds s.sp.val s.pc }
  | .jp nnn => { s with pc := BitVec.ofNat 16 nnn.toNat }
  | .jpV0 nnn => { s with pc := BitVec.ofNat 16 (nnn.toNat + (s.getV 0).toNat) }
  | .seImm x kk => skipped (decide (s.getV x = kk)) s
  | .sneImm x kk => skipped (decide (s.getV x ≠ kk)) s
  | .seReg x y => skipped (decide (s.getV x = s.getV y)) s
  | .sneReg x y => skipped (decide (s.getV x ≠ s.getV y)) s
  | .skp x => skipped (s.keyDown (s.lowNibble x)) s
  | .sknp x => skipped (!s.keyDown (s.lowNibble x)) s
  | .drw x y n => { s.setV Reg.vf (collisionFlag (drawn s x y n).hit) with disp := (drawn s x y n).disp }
  | .ldB x => { s with mem := copyBytes s.mem s.indexBase (bcdDigits (s.getV x)) }
  | .stRegs x => { s with mem := copyBytes s.mem s.indexBase (s.regsUpTo x) }
  | .ldRegs x => { s with v := setRegs s.v 0 ((List.range' s.indexBase (x.val + 1)).map s.mem.read) }
  | .ldK x =>
    { s with
      pc := (lowestKeyDown s).elim s.instrAddr fun _ => s.pc
      v := (lowestKeyDown s).elim s.v fun k => (s.setV x (BitVec.ofNat 8 k.val)).v }
  | i => nextStateOr s (exec i s)

/-- The row of R202 that the four index-addressed instructions share (R147). -/
theorem raisedIn_indexed {i : Instr} {count : Nat} (h : indexCount i = some count) (s : State) :
    raisedIn i s =
      if count = 0 ∨ s.indexBase + count ≤ Config.memSize then none
      else some ⟨.memRange, max s.indexBase Config.memSize⟩ := by
  simp only [State.indexBase, Config.memSize]
  cases i <;> cases h <;> exact (if_congr (by omega) rfl rfl).trans (ite_not ..)

/-- A handler's branch, by the violation it raises or not. -/
theorem ite_next_eq_elim {c d : Prop} [Decidable c] [Decidable d] (h : c ↔ d) (t : State) (e : Violation)
    (f : Violation → State) :
    (if c then .next t else .next (f e) : Out) = .next ((if d then none else some e).elim t f) := by
  rw [if_congr h rfl rfl]
  split <;> rfl

/-- The six skips, by the condition they test (R104). -/
theorem skipIf_eq_elim (c : Bool) (s : State) :
    skipIf c s =
      .next ((if c = true ∧ 4096 ≤ s.pc.toNat + 2 then some (⟨.pcRange, s.pc.toNat + 2⟩ : Violation) else none).elim
        (skipped c s) (s.haltAt s.instrAddr)) := by
  rw [skipIf_eq]
  cases c with
  | false => rfl
  | true =>
    simp only [true_and, ← Nat.not_lt, ite_not]
    exact ite_next_eq_elim Iff.rfl _ _ _

theorem exec_call_eq_elim (nnn : Addr) (s : State) :
    exec (.call nnn) s = .next ((raisedIn (.call nnn) s).elim (completed (.call nnn) s) (s.haltAt s.instrAddr)) := by
  by_cases h : s.sp.val = 16
  · rw [exec, execCall_eq, dif_neg (by omega)]
    simp [raisedIn, raisedBy, h]
  · have hroom : s.sp.val < 16 := by omega
    rw [exec_call_of_room nnn hroom]
    simp [raisedIn, raisedBy, completed, h, hroom, Vector.setIfInBounds, Array.setIfInBounds]

theorem exec_ret_eq_elim (s : State) :
    exec .ret s = .next ((raisedIn .ret s).elim (completed .ret s) (s.haltAt s.instrAddr)) := by
  rw [exec, execRet_eq]
  by_cases h : s.sp.val = 0
  · simp [raisedIn, h]
  · simp only [raisedIn, h, dite_false, if_false, ← Nat.not_lt, ite_not]
    exact ite_next_eq_elim Iff.rfl _ _ _

/-- The two ends of Fx0A: it waits at its own address, or takes the lowest key down (R182). -/
theorem completed_ldK_cases (x : Reg) (s : State) :
    (lowestKeyDown s = none ∧ completed (.ldK x) s = { s with pc := s.instrAddr }) ∨
      ∃ k, lowestKeyDown s = some k ∧ completed (.ldK x) s = s.setV x (BitVec.ofNat 8 k.val) := by
  cases hk : lowestKeyDown s with
  | none => exact .inl ⟨rfl, by simp only [completed, hk, Option.elim_none]⟩
  | some k => exact .inr ⟨k, rfl, by simp only [completed, hk, Option.elim_some]; rfl⟩

/-- Everything an instruction can do: it raises `raisedIn` and commits nothing, or leaves `completed` (R11, R205). -/
theorem exec_eq (i : Instr) (s : State) :
    exec i s = .next ((raisedIn i s).elim (completed i s) (s.haltAt s.instrAddr)) := by
  cases i
  case call nnn => exact exec_call_eq_elim nnn s
  case ret => exact exec_ret_eq_elim s
  case jp nnn => exact execJp_eq nnn s
  case jpV0 nnn =>
    simp only [raisedIn, raisedBy, ← Nat.not_lt, ite_not]
    exact (execJpV0_eq nnn s).trans (ite_next_eq_elim Iff.rfl _ _ _)
  case seImm | sneImm | seReg | sneReg | skp | sknp =>
    refine (skipIf_eq_elim _ s).trans ?_
    simp only [raisedIn, raisedBy, completed, decide_eq_true_eq, Bool.not_eq_true']
  case drw x y n =>
    rw [raisedIn_indexed rfl]
    exact (execDrw_eq x y n s).trans (ite_next_eq_elim Iff.rfl _ _ _)
  case ldB x =>
    rw [raisedIn_indexed rfl]
    exact (execLdB_eq x s).trans (ite_next_eq_elim (by omega) _ _ _)
  case stRegs x =>
    rw [raisedIn_indexed rfl]
    exact (execStRegs_eq x s).trans (ite_next_eq_elim (by omega) _ _ _)
  case ldRegs x =>
    rw [raisedIn_indexed rfl]
    exact (execLdRegs_eq x s).trans (ite_next_eq_elim (by omega) _ _ _)
  case ldK x =>
    rcases completed_ldK_cases x s with ⟨hk, h⟩ | ⟨k, hk, h⟩ <;> rw [h]
    · exact exec_ldK_of_none x hk
    · exact exec_ldK_of_some x hk
  all_goals rfl

end Sys2Proof
end

section
/-! The invariants (spec/10_state.md R41): what a step can lead to, said once (`step_next_cases`), and that each of
these ends keeps pc, the pushed slots and the form of memory. -/

namespace Sys2Proof

open Sys2Proof.Machine Sys2Proof.Claims

/-! ### What a step can lead to -/

/-- An opcode that ends in a next state is no instruction and does nothing, or is run. -/
theorem execute_next_cases {p : NearMissPolicy} {op : Word} {s t : State} (h : execute p op s = .next t) :
    t = s ∨ ∃ i, exec i s = .next t := by
  unfold execute at h
  split at h
  case h_1 i _ => exact .inr ⟨i, h⟩
  case h_2 =>
    cases p <;> cases h
    exact .inl rfl
  all_goals
    cases h
    exact .inl rfl

/-- A cycle that ends in a next state was Ready; its fetch raised, or it passed the fetch and did nothing or ran an
instruction. -/
theorem cycle_next_cases {p : NearMissPolicy} {s t : State} (h : cycle p s = .next t) :
    s.status = .ready ∧
      ((∃ e, fetch s = .error e ∧ t = s.haltAt s.pc e) ∨
        (s.pc.toNat + 2 < Config.memSize ∧ (t = s.fetched ∨ ∃ i, exec i s.fetched = .next t))) := by
  have hs : s.status = .ready := by
    unfold cycle at h
    split at h
    · assumption
    all_goals cases h
  refine ⟨hs, ?_⟩
  rcases cycle_cases_of_ready (p := p) hs with ⟨e, he, hc⟩ | ⟨hpc, hc⟩
  · cases hc.symm.trans h
    exact .inl ⟨e, he, rfl⟩
  · exact .inr ⟨hpc, execute_next_cases (hc.symm.trans h)⟩

/-- The next event is a cycle, or the host operation that stands first in the schedule. -/
theorem nextEvent_cases (s : State) :
    (nextEvent s).1 = .cycle ∨ ∃ op, s.schedule.head? = some (.host op) ∧ (nextEvent s).1 = .host op := by
  unfold nextEvent
  cases s.schedule with
  | nil => exact .inl rfl
  | cons e rest =>
    cases e with
    | cycle => exact .inl rfl
    | host op => exact .inr ⟨op, rfl, rfl⟩

/-- `s` with its next event taken off the schedule. -/
def unqueued (s : State) : State := { s with schedule := s.schedule.tail }

theorem stepUnder_of_host {p : NearMissPolicy} {s : State} {op : HostOp} (h : (nextEvent s).1 = .host op) :
    stepUnder p s = hostStep op (unqueued s) := by
  rw [stepUnder, h, runEvent, nextEvent_snd]
  rfl

/-- Everything a step can lead to: with its event taken off the schedule, it is a cycle or a host operation (R44). -/
theorem step_next_cases {s t : State} (h : step s = .next t) :
    cycle .noop (unqueued s) = .next t ∨
      ∃ op, s.schedule.head? = some (.host op) ∧ hostStep op (unqueued s) = .next t := by
  rcases nextEvent_cases s with hc | ⟨op, hop, hh⟩
  · exact .inl ((stepUnder_of_cycle hc).symm.trans h)
  · exact .inr ⟨op, hop, (stepUnder_of_host hh).symm.trans h⟩

/-- An instruction that ends in `t` raised and committed nothing, or completed. -/
theorem exec_next_cases {i : Instr} {s t : State} (h : exec i s = .next t) :
    (∃ e, raisedIn i s = some e ∧ t = s.haltAt s.instrAddr e) ∨ (raisedIn i s = none ∧ t = completed i s) := by
  rw [exec_eq] at h
  cases hr : raisedIn i s with
  | none =>
    rw [hr] at h
    cases h
    exact .inr ⟨rfl, rfl⟩
  | some e =>
    rw [hr] at h
    cases h
    exact .inl ⟨e, rfl, rfl⟩

/-! ### An instruction keeps the invariants -/

theorem toNat_ofNat_lt {n : Nat} (h : n < 4096) : (BitVec.ofNat 16 n).toNat < 4096 := by
  rw [BitVec.toNat_ofNat]
  omega

/-- The address of the instruction lies in memory, since pc stands past it (R25). -/
theorem toNat_instrAddr_lt {s : State} (hpc : s.pc.toNat < 4096) (h2 : 2 ≤ s.pc.toNat) : s.instrAddr.toNat < 4096 := by
  have : (2 : Word).toNat = 2 := rfl
  rw [State.instrAddr, BitVec.toNat_sub]
  omega

theorem toNat_pc_skipped_lt {c : Bool} {s : State} (hpc : s.pc.toNat < 4096)
    (h : c = true → s.pc.toNat < 4094) : (skipped c s).pc.toNat < 4096 := by
  cases c with
  | false => exact hpc
  | true => exact toNat_ofNat_lt (Nat.add_lt_add_right (h rfl) 2)

/-- On the empty stack of the reset state no slot is pushed (R40). -/
theorem inv_reset : Inv State.reset := ⟨by decide, fun _ hk => absurd hk (Nat.not_lt_zero _), wf_reset⟩

theorem inv_init (s : State) : Inv (init s) := ⟨inv_reset.pc_lt, inv_reset.slots, inv_reset.mem_wf⟩

section
variable {s : State} (hinv : Inv s)
include hinv

/-- With something on the stack, a return finds a pc (R41). -/
theorem toNat_topSlot_lt (h : s.sp.val ≠ 0) : (topSlot s).toNat < 4096 :=
  (hinv.slots ⟨s.sp.val - 1, by omega⟩ (by show s.sp.val - 1 < s.sp.val; omega)).2

theorem raisedIn_eq_raisedBy (i : Instr) : raisedIn i s = raisedBy i s := by
  cases i
  case ret =>
    by_cases h : s.sp.val = 0
    · simp [raisedIn, raisedBy, h]
    · simp [raisedIn, raisedBy, h, toNat_topSlot_lt hinv h]
  all_goals rfl

theorem toNat_pc_completed_lt (h2 : 2 ≤ s.pc.toNat) {i : Instr} (hr : raisedIn i s = none) :
    (completed i s).pc.toNat < 4096 := by
  cases i
  case ret => exact toNat_topSlot_lt hinv fun h => by simp [raisedIn, h] at hr
  case call nnn => exact toNat_ofNat_lt nnn.isLt
  case jp nnn => exact toNat_ofNat_lt nnn.isLt
  case jpV0 nnn => exact toNat_ofNat_lt (by simpa [raisedIn, raisedBy] using hr)
  case seImm | sneImm | seReg | sneReg | skp | sknp =>
    exact toNat_pc_skipped_lt hinv.pc_lt (by simpa [raisedIn, raisedBy] using hr)
  case ldK x =>
    rcases completed_ldK_cases x s with ⟨-, h⟩ | ⟨k, -, h⟩ <;> rw [h]
    · exact toNat_instrAddr_lt hinv.pc_lt h2
    · exact hinv.pc_lt
  all_goals exact hinv.pc_lt

theorem slots_completed (h2 : 2 ≤ s.pc.toNat) (i : Instr) (k : Fin 16) (hk : k.val < (completed i s).sp.val) :
    2 ≤ ((completed i s).slot k).toNat ∧ ((completed i s).slot k).toNat < 4096 := by
  cases i
  case ret => exact hinv.slots k (Nat.lt_of_lt_of_le hk (Nat.sub_le s.sp.val 1))
  case call nnn =>
    have hk' : k.val < min (s.sp.val + 1) 16 := hk
    simp only [completed, State.slot, Vector.getElem_setIfInBounds]
    split
    · exact ⟨h2, hinv.pc_lt⟩
    · exact hinv.slots k (by omega)
  all_goals exact hinv.slots k hk

/-- The two stores write at addresses that exist, where they do not raise (R50, R147). -/
theorem mem_wf_completed {i : Instr} (hr : raisedIn i s = none) : (completed i s).mem.wf = true := by
  cases i
  case ldB x =>
    rw [raisedIn_indexed rfl] at hr
    exact wf_copyBytes hinv.mem_wf (by simpa [bcdDigits] using hr)
  case stRegs x =>
    rw [raisedIn_indexed rfl] at hr
    exact wf_copyBytes hinv.mem_wf (by simpa [length_regsUpTo] using hr)
  all_goals exact hinv.mem_wf

/-- The pc that an instruction runs with is past its address, so it is at least 2 (R25). -/
theorem inv_of_exec (h2 : 2 ≤ s.pc.toNat) {i : Instr} {t : State} (h : exec i s = .next t) : Inv t := by
  rcases exec_next_cases h with ⟨e, -, rfl⟩ | ⟨hr, rfl⟩
  · exact ⟨toNat_instrAddr_lt hinv.pc_lt h2, hinv.slots, hinv.mem_wf⟩
  · exact ⟨toNat_pc_completed_lt hinv h2 hr, slots_completed hinv h2 i, mem_wf_completed hinv hr⟩

/-! ### A step keeps the invariants -/

theorem inv_fetched (hpc : s.pc.toNat + 2 < 4096) : Inv s.fetched :=
  ⟨toNat_ofNat_lt hpc, hinv.slots, hinv.mem_wf⟩

theorem inv_unqueued : Inv (unqueued s) := ⟨hinv.pc_lt, hinv.slots, hinv.mem_wf⟩

theorem inv_of_cycle {p : NearMissPolicy} {t : State} (h : cycle p s = .next t) : Inv t := by
  obtain ⟨-, ⟨e, -, rfl⟩ | ⟨hpc, hrun⟩⟩ := cycle_next_cases h
  · exact ⟨hinv.pc_lt, hinv.slots, hinv.mem_wf⟩
  · have hf := inv_fetched hinv hpc
    rcases hrun with rfl | ⟨i, hi⟩
    · exact hf
    · exact inv_of_exec hf (by simp only [State.fetched, BitVec.toNat_ofNat, Config.memSize] at hpc ⊢; omega) hi

theorem inv_of_hostStep {op : HostOp} {t : State} (h : hostStep op s = .next t) : Inv t := by
  cases op with
  | init =>
    cases h
    exact inv_init s
  | loadRom bytes =>
    rcases loadRom_cases bytes s with ⟨-, -, hl⟩ | ⟨-, hlen, hl⟩ | ⟨-, hl⟩ <;> cases hl.symm.trans h
    · exact ⟨hinv.pc_lt, hinv.slots, hinv.mem_wf⟩
    · refine ⟨hinv.pc_lt, hinv.slots, wf_copyBytes hinv.mem_wf ?_⟩
      simp only [Config.romMax, Config.entry, Config.memSize] at hlen ⊢
      omega
  | tick | setKeypad =>
    cases h
    exact ⟨hinv.pc_lt, hinv.slots, hinv.mem_wf⟩

end

/-! ### The obligations -/

/-- Settles O16: each part evaluates on the reset state. -/
theorem resetMeetsTheInvariants : Obligations.ResetMeetsTheInvariants := by
  unfold Obligations.ResetMeetsTheInvariants
  exact ⟨inv_reset, trivial⟩

/-- Settles O15: a step is a cycle or a host operation, and the schedule is no part of the invariants. -/
theorem everyStepKeepsTheInvariants : Obligations.EveryStepKeepsTheInvariants := by
  unfold Obligations.EveryStepKeepsTheInvariants
  intro s t hinv h
  rcases step_next_cases h with hc | ⟨op, -, hop⟩
  · exact inv_of_cycle (inv_unqueued hinv) hc
  · exact inv_of_hostStep (inv_unqueued hinv) hop

end Sys2Proof
end

section
/-! The whole-machine rules: which units and which cells an instruction writes and reads (spec/10_state.md R23, R41),
and what commutes with a host operation. Each is read off `raisedIn` and `completed`. -/

namespace Sys2Proof

open Sys2Proof.Machine Sys2Proof.Claims

/-! ### The cells an instruction writes (R23) -/

theorem cellValue_setV_of_ne {s : State} {x : Reg} {c : RegCell} (b : Byte) (h : c ≠ .v x) :
    cellValue c (s.setV x b) = cellValue c s := by
  cases c
  case v r => exact congrArg BitVec.toNat (getV_setV_ne s b fun e => h (congrArg RegCell.v e))
  all_goals rfl

theorem cellValue_setFlagged_of_ne {s : State} {x : Reg} {c : RegCell} (f b : Byte) (hvf : c ≠ .v Reg.vf)
    (hx : c ≠ .v x) : cellValue c (s.setFlagged x f b) = cellValue c s :=
  (cellValue_setV_of_ne b hx).trans (cellValue_setV_of_ne f hvf)

theorem v_mem_cellsUpTo {r x : Reg} : RegCell.v r ∈ cellsUpTo x ↔ r.val ≤ x.val := by
  simp [cellsUpTo]

/-- A completed instruction keeps the cells outside its row's column "writes". -/
theorem cellValue_completed {i : Instr} {s : State} {c : RegCell} (hc : c ∉ cellsWritten i s) :
    cellValue c (completed i s) = cellValue c s := by
  cases i
  case ldImm | addImm | ldReg | orReg | andReg | xorReg | ldVxDt =>
    exact cellValue_setV_of_ne _ (List.ne_of_not_mem_cons hc)
  case rnd =>
    exact (cellValue_setV_of_ne (s := s.draw.2) _ (List.ne_of_not_mem_cons hc)).trans (by cases c <;> rfl)
  case drw =>
    exact Eq.trans (by cases c <;> rfl) (cellValue_setV_of_ne (s := s) _ (List.ne_of_not_mem_cons hc))
  case addReg | sub | shr | subn | shl =>
    exact cellValue_setFlagged_of_ne _ _ (List.ne_of_not_mem_cons hc)
      (List.ne_of_not_mem_cons (List.not_mem_of_not_mem_cons hc))
  case ldI | addI | ldF =>
    cases c
    case idx => exact absurd (List.mem_singleton_self _) hc
    all_goals rfl
  case ldDt =>
    cases c
    case dt => exact absurd (List.mem_singleton_self _) hc
    all_goals rfl
  case ldSt =>
    cases c
    case st => exact absurd (List.mem_singleton_self _) hc
    all_goals rfl
  case ldRegs x =>
    cases c
    case v r =>
      have hr : ¬ r.val < x.val + 1 := fun h => hc (v_mem_cellsUpTo.mpr (Nat.le_of_lt_succ h))
      exact congrArg BitVec.toNat ((getV_setRegs_read s _ _ r).trans (if_neg hr))
    all_goals rfl
  case ldK x =>
    rcases completed_ldK_cases x s with ⟨-, h⟩ | ⟨k, hk, h⟩ <;> rw [h]
    · cases c <;> rfl
    · simp only [cellsWritten, hk, Option.isSome_some, if_true] at hc
      exact cellValue_setV_of_ne _ (List.ne_of_not_mem_cons hc)
  all_goals cases c <;> rfl

/-! ### The cells an instruction reads (R23) -/

/-- `s` with the cells V, I, DT and ST of another state. -/
def withCellsOf (c s : State) : State := { s with v := c.v, idx := c.idx, dt := c.dt, st := c.st }

theorem eq_withCellsOf {s s' : State} (h : SameOutsideCells s s') : s' = withCellsOf s' s := by
  obtain ⟨hpc, hsp, hstack, hdisp, hkey, hmem, hstatus, hdraws, hsched⟩ := h
  simp only [withCellsOf, hpc, hsp, hstack, hdisp, hkey, hmem, hstatus, hdraws, hsched]

/-- Two states that agree on everything but V, I, DT and ST, and on the cells listed. -/
def AgreeOn (cells : List RegCell) (s s' : State) : Prop :=
  SameOutsideCells s s' ∧ ∀ c ∈ cells, cellValue c s = cellValue c s'

theorem agreeOn_singleton {s t : State} {d : RegCell} (h : SameOutsideCells s t) (hd : cellValue d s = cellValue d t) :
    AgreeOn [d] s t := by
  refine ⟨h, fun e he => ?_⟩
  cases List.mem_singleton.mp he
  exact hd

theorem lowNibble_congr {s t : State} {x : Reg} (h : s.getV x = t.getV x) : s.lowNibble x = t.lowNibble x := by
  simp only [State.lowNibble, h]

section
variable {s c : State}

theorem agreeOn_setV {x : Reg} {b b' : Byte} (hb : b = b') :
    AgreeOn [.v x] (s.setV x b) ((withCellsOf c s).setV x b') :=
  agreeOn_singleton (by constructor <;> rfl) (by simp only [cellValue, getV_setV_self, hb])

theorem agreeOn_setFlagged {x : Reg} {f f' b b' : Byte} (hf : f = f') (hb : b = b') :
    AgreeOn [.v Reg.vf, .v x] (s.setFlagged x f b) ((withCellsOf c s).setFlagged x f' b') := by
  subst hf hb
  refine ⟨by constructor <;> rfl, fun d hd => ?_⟩
  simp only [List.mem_cons, List.not_mem_nil, or_false] at hd
  rcases hd with rfl | rfl <;> simp only [cellValue, getV_setFlagged, if_true]

theorem agreeOn_idx {w w' : Word} (h : w = w') :
    AgreeOn [.idx] { s with idx := w } { withCellsOf c s with idx := w' } :=
  agreeOn_singleton (by constructor <;> rfl) (congrArg BitVec.toNat h)

theorem agreeOn_pc {a a' : Word} (h : a = a') : AgreeOn [] { s with pc := a } { withCellsOf c s with pc := a' } := by
  subst h
  exact ⟨by constructor <;> rfl, by simp⟩

theorem agreeOn_mem {m m' : Memory} (h : m = m') :
    AgreeOn [] { s with mem := m } { withCellsOf c s with mem := m' } := by
  subst h
  exact ⟨by constructor <;> rfl, by simp⟩

theorem agreeOn_skipped {b b' : Bool} (h : b = b') : AgreeOn [] (skipped b s) (skipped b' (withCellsOf c s)) :=
  agreeOn_pc (by rw [h]; rfl)

theorem drawn_withCellsOf {x y : Reg} {n : Nat} (hx : s.getV x = (withCellsOf c s).getV x)
    (hy : s.getV y = (withCellsOf c s).getV y) (hidx : s.idx = (withCellsOf c s).idx) :
    drawn s x y n = drawn (withCellsOf c s) x y n := by
  simp only [drawn, State.originX, State.originY, State.indexBase, hx, hy, hidx]
  rfl

theorem agreeOn_drawn {k k' : Canvas} (h : k = k') :
    AgreeOn [.v Reg.vf] { s.setV Reg.vf (collisionFlag k.hit) with disp := k.disp }
      { (withCellsOf c s).setV Reg.vf (collisionFlag k'.hit) with disp := k'.disp } := by
  subst h
  exact ⟨by constructor <;> rfl, (agreeOn_setV (s := s) (c := c) rfl).2⟩

theorem agreeOn_setRegs (x : Reg) {a a' : Nat} (h : a = a') :
    AgreeOn (cellsUpTo x) { s with v := setRegs s.v 0 ((List.range' a (x.val + 1)).map s.mem.read) }
      { withCellsOf c s with v := setRegs c.v 0 ((List.range' a' (x.val + 1)).map s.mem.read) } := by
  subst h
  refine ⟨by constructor <;> rfl, fun d hd => ?_⟩
  cases d
  case v r =>
    have hr : r.val < x.val + 1 := Nat.lt_succ_of_le (v_mem_cellsUpTo.mp hd)
    refine congrArg BitVec.toNat ?_
    rw [getV_setRegs_read]
    exact (if_pos hr).trans ((getV_setRegs_read (withCellsOf c s) a _ r).trans (if_pos hr)).symm
  all_goals simp [cellsUpTo] at hd

theorem regsUpTo_withCellsOf {x : Reg} (h : ∀ r : Reg, r.val ≤ x.val → s.getV r = (withCellsOf c s).getV r) :
    s.regsUpTo x = (withCellsOf c s).regsUpTo x := by
  refine List.ext_getElem (by rw [length_regsUpTo, length_regsUpTo]) fun j hj hj' => ?_
  rw [length_regsUpTo] at hj
  have := h ⟨j, by omega⟩ (Nat.le_of_lt_succ hj)
  simpa [State.regsUpTo, State.getV] using this

section
variable {i : Instr} (h : ∀ d ∈ cellsRead i, cellValue d s = cellValue d (withCellsOf c s))
include h

theorem getV_eq_of_read (x : Reg) (hx : .v x ∈ cellsRead i := by simp [cellsRead]) :
    s.getV x = (withCellsOf c s).getV x :=
  BitVec.eq_of_toNat_eq (h _ hx)

theorem idx_eq_of_read (hidx : .idx ∈ cellsRead i := by simp [cellsRead]) : s.idx = (withCellsOf c s).idx :=
  BitVec.eq_of_toNat_eq (h _ hidx)

/-- What an instruction raises depends on the cells of its row's column "reads" alone. -/
theorem raisedIn_withCellsOf : raisedIn i (withCellsOf c s) = raisedIn i s := by
  cases i
  case jpV0 => simp only [raisedIn, raisedBy, getV_eq_of_read h 0]
  case seImm x kk | sneImm x kk =>
    simp only [raisedIn, raisedBy, getV_eq_of_read h x]
    rfl
  case skp x | sknp x =>
    simp only [raisedIn, raisedBy, State.lowNibble, getV_eq_of_read h x]
    rfl
  case seReg x y | sneReg x y =>
    simp only [raisedIn, raisedBy, getV_eq_of_read h x, getV_eq_of_read h y]
    rfl
  case drw x y n =>
    by_cases hn : n = 0
    · subst hn
      rfl
    · simp only [raisedIn, raisedBy, idx_eq_of_read h (by simp [cellsRead, hn])]
  case ldB | stRegs | ldRegs => simp only [raisedIn, raisedBy, idx_eq_of_read h]
  all_goals rfl

/-- What a completed instruction leaves outside the cells, and in the cells it writes, depends on the cells of its
row's column "reads" alone. -/
theorem agreeOn_completed : AgreeOn (cellsWritten i s) (completed i s) (completed i (withCellsOf c s)) := by
  cases i
  case seImm x kk | sneImm x kk => exact agreeOn_skipped (by rw [getV_eq_of_read h x])
  case skp x | sknp x =>
    exact agreeOn_skipped (by rw [lowNibble_congr (getV_eq_of_read h x)]; rfl)
  case seReg x y | sneReg x y =>
    exact agreeOn_skipped (by rw [getV_eq_of_read h x, getV_eq_of_read h y])
  case jpV0 => exact agreeOn_pc (by rw [getV_eq_of_read h 0])
  case ldImm | rnd => exact agreeOn_setV rfl
  case addImm x kk => exact agreeOn_setV (by rw [getV_eq_of_read h x])
  case ldReg x y => exact agreeOn_setV (getV_eq_of_read h y)
  case orReg x y | andReg x y | xorReg x y =>
    exact agreeOn_setV (by rw [getV_eq_of_read h x, getV_eq_of_read h y])
  case addReg x y | sub x y | subn x y =>
    have hx := getV_eq_of_read h x
    have hy := getV_eq_of_read h y
    exact agreeOn_setFlagged (by rw [hx, hy]) (by rw [hx, hy])
  case shr x y | shl x y =>
    have hx := getV_eq_of_read h x
    exact agreeOn_setFlagged (by rw [hx]) (by rw [hx])
  case drw x y n =>
    refine agreeOn_drawn ?_
    by_cases hn : n = 0
    · subst hn
      rfl
    · exact drawn_withCellsOf (getV_eq_of_read h x (by simp [cellsRead, hn]))
        (getV_eq_of_read h y (by simp [cellsRead, hn])) (idx_eq_of_read h (by simp [cellsRead, hn]))
  case ldVxDt => exact agreeOn_setV (BitVec.eq_of_toNat_eq (h .dt (by simp [cellsRead])))
  case ldK x =>
    simp only [completed, cellsWritten, show lowestKeyDown (withCellsOf c s) = lowestKeyDown s from rfl]
    cases lowestKeyDown s with
    | none => exact agreeOn_pc rfl
    | some k => exact agreeOn_setV rfl
  case ldI => exact agreeOn_idx rfl
  case addI x => exact agreeOn_idx (by rw [getV_eq_of_read h x, idx_eq_of_read h])
  case ldF x => exact agreeOn_idx (by rw [lowNibble_congr (getV_eq_of_read h x)])
  case ldB x =>
    have hx := getV_eq_of_read h x
    exact agreeOn_mem (by rw [State.indexBase, State.indexBase, hx, idx_eq_of_read h]; rfl)
  case stRegs x =>
    have hregs := regsUpTo_withCellsOf fun r hr =>
      getV_eq_of_read h r (List.mem_cons_of_mem _ (v_mem_cellsUpTo.mpr hr))
    exact agreeOn_mem (by rw [State.indexBase, State.indexBase, hregs, idx_eq_of_read h]; rfl)
  case ldRegs x => exact agreeOn_setRegs x (congrArg BitVec.toNat (idx_eq_of_read h))
  case ldDt x | ldSt x =>
    exact agreeOn_singleton (by constructor <;> rfl) (congrArg BitVec.toNat (getV_eq_of_read h x))
  case cls | ret | jp | call =>
    exact ⟨by constructor <;> rfl, by simp [cellsWritten]⟩

end

end

/-! ### What commutes with a host operation -/

/-- A change of the state that an instruction neither sees nor undoes, in what it raises and in what it completes,
commutes with it. -/
theorem exec_commutes {i : Instr} {s : State} {f : State → State} (hr : raisedIn i (f s) = raisedIn i s)
    (hhalt : ∀ e, (f s).haltAt (f s).instrAddr e = f (s.haltAt s.instrAddr e))
    (hdone : completed i (f s) = f (completed i s)) :
    ∃ t, exec i s = .next t ∧ exec i (f s) = .next (f t) := by
  refine ⟨_, exec_eq i s, ?_⟩
  rw [exec_eq, hr, hdone]
  cases raisedIn i s with
  | none => rfl
  | some e => exact congrArg Host.Outcome.next (hhalt e)

theorem raisedIn_tick (i : Instr) (s : State) : raisedIn i (tick s) = raisedIn i s := by
  cases i <;> rfl

theorem completed_tick {i : Instr} (s : State) (h : ∀ x, i ≠ .ldVxDt x ∧ i ≠ .ldDt x ∧ i ≠ .ldSt x) :
    completed i (tick s) = tick (completed i s) := by
  cases i
  case ldVxDt x => exact absurd rfl (h x).1
  case ldDt x => exact absurd rfl (h x).2.1
  case ldSt x => exact absurd rfl (h x).2.2
  all_goals rfl

theorem raisedIn_setKeypad {i : Instr} (k : Keys) (s : State) (h : ∀ x, i ≠ .skp x ∧ i ≠ .sknp x ∧ i ≠ .ldK x) :
    raisedIn i (setKeypad k s) = raisedIn i s := by
  cases i
  case skp x => exact absurd rfl (h x).1
  case sknp x => exact absurd rfl (h x).2.1
  all_goals rfl

theorem completed_setKeypad {i : Instr} (k : Keys) (s : State) (h : ∀ x, i ≠ .skp x ∧ i ≠ .sknp x ∧ i ≠ .ldK x) :
    completed i (setKeypad k s) = setKeypad k (completed i s) := by
  cases i
  case skp x => exact absurd rfl (h x).1
  case sknp x => exact absurd rfl (h x).2.1
  case ldK x => exact absurd rfl (h x).2.2
  all_goals rfl

/-! ### The obligations -/

/-- Settles O20: a violation commits nothing, and each completed instruction updates the units of its own row. -/
theorem eachUnitIsWrittenByItsOwnInstructionsAlone : Obligations.EachUnitIsWrittenByItsOwnInstructionsAlone := by
  unfold Obligations.EachUnitIsWrittenByItsOwnInstructionsAlone
  intro i s t h
  rcases exec_next_cases h with ⟨e, -, rfl⟩ | ⟨-, rfl⟩
  · exact ⟨rfl, rfl, .inl rfl, .inl rfl, .inl rfl, .inl ⟨rfl, rfl⟩, .inl fun _ => rfl, .inl rfl, .inl rfl⟩
  · refine ⟨by cases i <;> rfl, by cases i <;> rfl, ?dt, ?st, ?disp, ?stack, ?mem, ?idx, ?draws⟩
    case dt =>
      cases i
      case ldDt x => exact .inr ⟨x, rfl⟩
      all_goals exact .inl rfl
    case st =>
      cases i
      case ldSt x => exact .inr ⟨x, rfl⟩
      all_goals exact .inl rfl
    case disp =>
      cases i
      case cls => exact .inr (.inl rfl)
      case drw x y n => exact .inr (.inr ⟨x, y, n, rfl⟩)
      all_goals exact .inl rfl
    case stack =>
      cases i
      case ret => exact .inr (.inl rfl)
      case call nnn => exact .inr (.inr ⟨nnn, rfl⟩)
      all_goals exact .inl ⟨rfl, rfl⟩
    case mem =>
      cases i
      case ldB x => exact .inr (.inl ⟨x, rfl⟩)
      case stRegs x => exact .inr (.inr ⟨x, rfl⟩)
      all_goals exact .inl fun _ => rfl
    case idx =>
      cases i
      case ldI nnn => exact .inr (.inl ⟨nnn, rfl⟩)
      case addI x => exact .inr (.inr (.inl ⟨x, rfl⟩))
      case ldF x => exact .inr (.inr (.inr ⟨x, rfl⟩))
      all_goals exact .inl rfl
    case draws =>
      cases i
      case rnd x kk => exact .inr ⟨x, kk, rfl⟩
      all_goals exact .inl rfl

/-- Settles O21: a violation changes no cell, and a completed instruction those of its row alone. -/
theorem cellsOutsideTheWriteSetAreKept : Obligations.CellsOutsideTheWriteSetAreKept := by
  unfold Obligations.CellsOutsideTheWriteSetAreKept
  intro i s t h c hc
  rcases exec_next_cases h with ⟨e, -, rfl⟩ | ⟨-, rfl⟩
  · cases c <;> rfl
  · exact cellValue_completed hc

/-- Settles O22: both runs raise the same, or both complete. -/
theorem cellsOutsideTheReadSetDoNotMatter : Obligations.CellsOutsideTheReadSetDoNotMatter := by
  unfold Obligations.CellsOutsideTheReadSetDoNotMatter
  intro i s s' _ hsame hread
  rw [eq_withCellsOf hsame] at hread ⊢
  refine ⟨_, _, exec_eq i s, exec_eq i _, ?_⟩
  rw [raisedIn_withCellsOf hread]
  cases raisedIn i s with
  | none =>
    obtain ⟨hout, hcells⟩ := agreeOn_completed hread
    exact ⟨hout, fun _ => hcells⟩
  | some e => exact ⟨by constructor <;> rfl, fun hready => nomatch hready⟩

/-- Settles O23: a Tick changes DT and ST, which no other instruction reads or writes. -/
theorem tickCommutesWithOtherInstructions : Obligations.TickCommutesWithOtherInstructions := by
  unfold Obligations.TickCommutesWithOtherInstructions
  exact fun i s h => exec_commutes (raisedIn_tick i s) (fun _ => rfl) (completed_tick s h)

/-- Settles O24: SetKeypad changes the snapshot, which no other instruction reads and none writes. -/
theorem setKeypadCommutesWithOtherInstructions : Obligations.SetKeypadCommutesWithOtherInstructions := by
  unfold Obligations.SetKeypadCommutesWithOtherInstructions
  exact fun i s k h => exec_commutes (raisedIn_setKeypad k s h) (fun _ => rfl) (completed_setKeypad k s h)

end Sys2Proof
end

section
/-! The step (spec/30_encoding.md R70, spec/60_exceptions.md R201 to R208): what it is in each status and at each pc,
the conditions that raise, and what a halted or failed status keeps. -/

namespace Sys2Proof

open Sys2Proof.Machine Sys2Proof.Claims

/-! ### A cycle, by where it ends -/

/-- Under NEAR_MISS_POLICY = noop every unknown opcode is a no-op, near misses too (R77, R78). -/
theorem execute_noop_of_unknownWord {op : Word} (hu : UnknownWord op.toNat) (s : State) :
    execute .noop op s = .next s := by
  by_cases hn : NearMissWord op.toNat
  · exact execute_noop_of_nearMiss hn s
  · exact execute_of_unknown hu hn s

theorem cycle_of_fetch_error {p : NearMissPolicy} {s : State} {e : Violation} (hs : s.status = .ready)
    (he : fetch s = .error e) : cycle p s = .next (s.haltAt s.pc e) := by
  simp only [cycle, hs, he]

section
variable {s : State} (hs : s.status = .ready) (hc : (nextEvent s).1 = .cycle)
include hs hc

theorem step_of_unknownWord (hpc : s.pc.toNat + 2 < 4096) (hu : UnknownWord (wordAt s s.pc.toNat).toNat) :
    step s = .next { s with pc := BitVec.ofNat 16 (s.pc.toNat + 2), schedule := s.schedule.tail } :=
  (stepUnder_of_fetch hs hc hpc).trans (execute_noop_of_unknownWord hu _)

theorem stepUnder_of_instr {p : NearMissPolicy} (hpc : s.pc.toNat + 2 < 4096) {i : Instr}
    (hi : decodeWord (wordAt s s.pc.toNat) = .ok i) : stepUnder p s = exec i (unqueued s).fetched :=
  (stepUnder_of_fetch hs hc hpc).trans (execute_of_decodeWord hi _)

theorem step_of_fetch_error {e : Violation} (he : fetch (unqueued s) = .error e) :
    step s = .next ((unqueued s).haltAt s.pc e) := by
  rw [step, stepUnder_of_cycle hc]
  exact cycle_of_fetch_error (s := unqueued s) hs he

theorem step_at_0xFFE (hpc : s.pc.toNat = 0xFFE) :
    step s = .next { s with status := .halted .pcRange 0x1000, schedule := s.schedule.tail } := by
  have hpc' : (unqueued s).pc.toNat = 0xFFE := hpc
  have he := fetch_pcRange (s := unqueued s) (congrArg (· + 2) hpc')
  rw [step_of_fetch_error hs hc he, hpc']
  rfl

theorem step_at_0xFFF (hpc : s.pc.toNat = 0xFFF) :
    step s = .next { s with status := .halted .memRange 0x1000, schedule := s.schedule.tail } := by
  have hpc' : (unqueued s).pc.toNat = 0xFFF := hpc
  have he := fetch_memRange (s := unqueued s) (congrArg (· + 1) hpc')
  rw [step_of_fetch_error hs hc he, hpc']
  rfl

end

/-! ### The status an instruction leaves (R202) -/

theorem status_completed (i : Instr) (s : State) : (completed i s).status = s.status := by
  cases i <;> rfl

theorem status_of_exec {i : Instr} {s t : State} (hinv : Inv s) (h : exec i s = .next t) :
    t.status = statusAfter s.status (raisedBy i s) := by
  rw [← raisedIn_eq_raisedBy hinv]
  rcases exec_next_cases h with ⟨e, hr, rfl⟩ | ⟨hr, rfl⟩ <;> rw [hr]
  · rfl
  · exact status_completed i s

/-- What an instruction raises does not depend on the schedule. -/
theorem raisedBy_schedule (i : Instr) (s : State) (es : List Event) :
    raisedBy i { s with schedule := es } = raisedBy i s := by
  cases i <;> rfl

theorem status_of_step_instr {s : State} {i : Instr} (hinv : Inv s) (hs : s.status = .ready)
    (hc : (nextEvent s).1 = .cycle) (hpc : s.pc.toNat + 2 < 4096) (hi : decodeWord (wordAt s s.pc.toNat) = .ok i) :
    ∃ t, step s = .next t ∧ t.status = statusAfter .ready (raisedBy i s.fetched) := by
  have hrun : step s = _ := stepUnder_of_instr hs hc hpc hi
  rw [exec_eq] at hrun
  refine ⟨_, hrun, ?_⟩
  have hinv' : Inv (unqueued s).fetched := inv_fetched (inv_unqueued hinv) hpc
  rw [status_of_exec hinv' (exec_eq i _), show (unqueued s).fetched.status = .ready from hs]
  exact congrArg (statusAfter .ready) (raisedBy_schedule i s.fetched _)

/-! ### What a halted status records (R201) -/

/-- A range fault: its record is a value of 4096 or more. -/
theorem statusRecord_haltAt_of_range {s : State} {a : Word} {e : Violation}
    (hc : e.cause = .pcRange ∨ e.cause = .memRange) (hi : 4096 ≤ e.info) : StatusRecord (s.haltAt a e) := by
  obtain ⟨c, n⟩ := e
  rcases hc with rfl | rfl <;> exact hi

/-- The fetch raises range faults alone, wherever pc points (R202). -/
theorem fetch_error_range {s : State} {e : Violation} (h : fetch s = .error e) :
    (e.cause = .pcRange ∨ e.cause = .memRange) ∧ 4096 ≤ e.info := by
  by_cases h0 : s.pc.toNat < Config.memSize
  · by_cases h1 : s.pc.toNat + 1 < Config.memSize
    · by_cases h2 : s.pc.toNat + 2 < Config.memSize
      · cases (fetch_ok h2).symm.trans h
      · have h2' : s.pc.toNat + 2 = Config.memSize := by omega
        cases (fetch_pcRange h2').symm.trans h
        exact ⟨.inl rfl, Nat.le_of_eq h2'.symm⟩
    · have h1' : s.pc.toNat + 1 = Config.memSize := by omega
      cases (fetch_memRange h1').symm.trans h
      exact ⟨.inr rfl, Nat.le_of_eq h1'.symm⟩
  · simp only [fetch, memRead_error (Nat.not_lt.mp h0), bind, Except.bind] at h
    cases h
    exact ⟨.inr rfl, Nat.not_lt.mp h0⟩

/-- Each violation is recorded as R201 says: a stack fault at the address that pc returns to, with sp as it was. -/
theorem statusRecord_of_raisedIn {i : Instr} {s : State} {e : Violation} (h : raisedIn i s = some e) :
    StatusRecord (s.haltAt s.instrAddr e) := by
  cases i
  case call nnn =>
    simp only [raisedIn, raisedBy, Option.ite_none_right_eq_some, Option.some.injEq] at h
    obtain ⟨hfull, rfl⟩ := h
    exact ⟨rfl, hfull⟩
  case ret =>
    simp only [raisedIn] at h
    split at h
    · next hempty =>
      cases h
      exact ⟨rfl, hempty⟩
    · simp only [Option.ite_none_right_eq_some, Option.some.injEq] at h
      obtain ⟨hslot, rfl⟩ := h
      exact hslot
  case jpV0 nnn =>
    simp only [raisedIn, raisedBy, Option.ite_none_right_eq_some, Option.some.injEq] at h
    obtain ⟨hsum, rfl⟩ := h
    exact hsum
  case seImm | sneImm | seReg | sneReg | skp | sknp =>
    simp only [raisedIn, raisedBy, Option.ite_none_right_eq_some, Option.some.injEq] at h
    obtain ⟨⟨-, hpc⟩, rfl⟩ := h
    exact hpc
  case drw | ldB | stRegs | ldRegs =>
    rw [raisedIn_indexed rfl, Option.ite_none_left_eq_some] at h
    obtain ⟨-, he⟩ := h
    cases he
    exact Nat.le_max_right _ _
  all_goals cases h

theorem statusRecord_of_ready {s : State} (h : s.status = .ready) : StatusRecord s := by
  rw [StatusRecord, h]
  trivial

theorem statusRecord_of_cycle {p : NearMissPolicy} {s t : State} (h : cycle p s = .next t) : StatusRecord t := by
  obtain ⟨hs, ⟨e, he, rfl⟩ | ⟨-, rfl | ⟨i, hi⟩⟩⟩ := cycle_next_cases h
  · obtain ⟨hcause, hinfo⟩ := fetch_error_range he
    exact statusRecord_haltAt_of_range hcause hinfo
  · exact statusRecord_of_ready hs
  · rcases exec_next_cases hi with ⟨e, hr, rfl⟩ | ⟨-, rfl⟩
    · exact statusRecord_of_raisedIn hr
    · exact statusRecord_of_ready ((status_completed i _).trans hs)

theorem statusRecord_of_hostStep {op : HostOp} {s t : State} (hrec : StatusRecord s) (h : hostStep op s = .next t) :
    StatusRecord t := by
  cases op with
  | init =>
    cases h
    trivial
  | loadRom bytes =>
    rcases loadRom_cases bytes s with ⟨-, hlen, hl⟩ | ⟨-, -, hl⟩ | ⟨-, hl⟩ <;> cases hl.symm.trans h
    · exact hlen
    · trivial
  | tick | setKeypad =>
    cases h
    exact hrec

/-! ### Outside Ready -/

theorem cycle_not_ready {p : NearMissPolicy} {s : State} (hs : s.status ≠ .ready) (t : State) : cycle p s ≠ .next t :=
  fun h => hs (cycle_next_cases h).1

/-- A host operation keeps the status of a halted engine or a rejected ROM, but for Init (R207, R208, R231). -/
theorem status_of_hostStep {op : HostOp} {s t : State} (h : hostStep op s = .next t) (hop : op ≠ .init)
    (hs : s.status ≠ .created) : t.status = s.status := by
  cases op with
  | init => exact absurd rfl hop
  | loadRom bytes =>
    rcases loadRom_cases bytes s with ⟨hcr, -, -⟩ | ⟨hcr, -, -⟩ | ⟨-, hl⟩
    · exact absurd hcr hs
    · exact absurd hcr hs
    · cases hl.symm.trans h
  | tick | setKeypad =>
    cases h
    rfl

theorem step_of_host {s : State} {op : HostOp} {rest : List Event} (h : s.schedule = .host op :: rest) :
    step s = hostStep op { s with schedule := rest } :=
  stepUnder_of_cons h

/-! ### The obligations -/

/-- Settles O7: with nothing scheduled the step is the cycle, whose fetch passes. -/
theorem stepRunsTheDecodedInstruction : Obligations.StepRunsTheDecodedInstruction := by
  unfold Obligations.StepRunsTheDecodedInstruction
  intro s i rest hf hd
  exact step_of_decodeWord hf (decodeBytes_eq_ok.mp hd).1

/-- Settles O8: a scheduled event is taken off and run. -/
theorem scheduledEventIsTheNextStep : Obligations.ScheduledEventIsTheNextStep := by
  unfold Obligations.ScheduledEventIsTheNextStep
  refine fun s rest => ⟨fun i bs hsched hs hpc hd => ?_, fun op => step_of_host⟩
  have hc : (nextEvent s).1 = .cycle := nextEvent_fst_eq_cycle.mpr (.inr (by rw [hsched]; rfl))
  rw [step, stepUnder_of_instr hs hc hpc (decodeBytes_eq_ok.mp hd).1, unqueued, hsched]
  rfl

/-- Settles O9: past its fetch the cycle runs the no-op, a near miss by the policy `step` runs under. -/
theorem unknownOpcodeIsANoOp : Obligations.UnknownOpcodeIsANoOp := by
  unfold Obligations.UnknownOpcodeIsANoOp
  exact fun _ => step_of_unknownWord

/-- Settles O11: the fetch raises before any instruction runs. -/
theorem fetchAtTheTopOfMemoryHalts : Obligations.FetchAtTheTopOfMemoryHalts := by
  unfold Obligations.FetchAtTheTopOfMemoryHalts
  exact fun _ hs hc => ⟨step_at_0xFFE hs hc, step_at_0xFFF hs hc⟩

/-- Settles O12: the answer of a cycle in each of the three other statuses. -/
theorem noCycleOutsideReady : Obligations.NoCycleOutsideReady := by
  unfold Obligations.NoCycleOutsideReady
  intro s hc
  rw [step, stepUnder_of_cycle hc]
  refine ⟨fun hs => ?_, fun n hs => ?_, fun c n hs => ?_⟩ <;> simp only [cycle, hs]

/-- Settles O14: the status follows `raisedIn`, which in states that meet the invariants is R202's table. -/
theorem onlyTheListedConditionsRaise : Obligations.OnlyTheListedConditionsRaise := by
  unfold Obligations.OnlyTheListedConditionsRaise
  exact ⟨fun _ hs hc hpc => ⟨_, step_at_0xFFF hs hc hpc, rfl⟩, fun _ hs hc hpc => ⟨_, step_at_0xFFE hs hc hpc, rfl⟩,
    fun _ _ => status_of_step_instr, fun _ hs hc hpc hu => ⟨_, step_of_unknownWord hs hc hpc hu, hs⟩,
    fun _ _ _ => status_of_exec⟩

/-- Settles O17: a cycle that raises records its violation, and a host operation keeps it or makes a true one. -/
theorem everyStepKeepsTheStatusRecord : Obligations.EveryStepKeepsTheStatusRecord := by
  unfold Obligations.EveryStepKeepsTheStatusRecord
  intro s t hrec h
  rcases step_next_cases h with hc | ⟨op, -, hop⟩
  · exact statusRecord_of_cycle hc
  · exact statusRecord_of_hostStep (s := unqueued s) hrec hop

/-- Settles O18: a cycle has no step outside Ready, and LoadRom none outside Created. -/
theorem onlyInitLeavesHalted : Obligations.OnlyInitLeavesHalted := by
  unfold Obligations.OnlyInitLeavesHalted
  intro s t hs h
  have hready : s.status ≠ .ready := by
    rcases hs with ⟨c, n, hs⟩ | ⟨n, hs⟩ <;> simp [hs]
  have hcreated : s.status ≠ .created := by
    rcases hs with ⟨c, n, hs⟩ | ⟨n, hs⟩ <;> simp [hs]
  rcases step_next_cases h with hc | ⟨op, hhead, hop⟩
  · exact absurd hc (cycle_not_ready (s := unqueued s) hready t)
  · rw [hhead]
    refine ⟨fun hne => status_of_hostStep (s := unqueued s) hop ?_ hcreated, fun he => ?_⟩
    · rintro rfl
      exact hne rfl
    · cases he
      cases hop
      rfl

end Sys2Proof
end

section
/-! Runs that go on unchanged (spec/70_reset_and_hazards.md R239, spec/44_keypad.md R184): a step that leaves the
state as it is does so any number of times. -/

namespace Sys2Proof

open Sys2Proof.Machine Sys2Proof.Claims

theorem run_of_step_self {s : State} (h : step s = .next s) (k : Nat) : core.run k s = .next s := by
  induction k with
  | zero => rfl
  | succ k ih => rw [run_succ_of_step h, ih]

/-! ### Spinning -/

/-- The jump back: the 12 bits of a pc below 4096 are the whole of it. -/
theorem ofNat_extractLsb'_pc {pc : Word} (h : pc.toNat < 4096) : BitVec.ofNat 16 (pc.extractLsb' 0 12).toNat = pc := by
  apply BitVec.eq_of_toNat_eq
  simp only [BitVec.extractLsb'_toNat, BitVec.toNat_ofNat, Nat.shiftRight_zero]
  omega

theorem cycle_of_spinning {p : NearMissPolicy} {s : State} (h : Spinning s) : cycle p s = .next s := by
  obtain ⟨hs, hpc, hw⟩ := h
  rw [cycle_of_fetch hs hpc, execute_of_decodeWord (hw ▸ decodeWord_encodeWord rfl), exec, execJp_eq,
    ofNat_extractLsb'_pc (by omega)]
  rfl

/-- A run through a plan of cycles, Tick and SetKeypad: spinning does not depend on the timers, the keypad or the
schedule, so each cycle does nothing and each host step leads to a spinning state again. -/
theorem run_plan_of_spinning {plan : List Event} (hplan : plan.all isCycleOrInput = true) {s : State}
    (h : Spinning s) :
    core.run plan.length { s with schedule := plan } = .next { hostSteps plan s with schedule := [] } := by
  induction plan generalizing s with
  | nil => rfl
  | cons e es ih =>
    obtain ⟨he, hes⟩ := Bool.and_eq_true_iff.mp hplan
    have taken : step { s with schedule := e :: es } = runEvent .noop e { s with schedule := es } :=
      stepUnder_of_cons rfl
    match e, he with
    | .cycle, _ =>
      have idle : step { s with schedule := .cycle :: es } = .next { s with schedule := es } :=
        taken.trans (cycle_of_spinning (s := { s with schedule := es }) h)
      exact (run_succ_of_step idle).trans (ih hes h)
    | .host .tick, _ => exact (run_succ_of_step taken).trans (ih hes (s := tick s) h)
    | .host (.setKeypad k), _ => exact (run_succ_of_step taken).trans (ih hes (s := setKeypad k s) h)

/-! ### The key wait -/

section
variable {s : State} {x : Reg} (hf : Fetchable s) (hw : wordAt s s.pc.toNat = encodeWord (.ldK x))
include hf hw

theorem step_ldK : step s = exec (.ldK x) s.fetched :=
  step_of_decodeWord hf (hw ▸ decodeWord_encodeWord rfl)

/-- With every key up Fx0A puts pc back to where the fetch found it (R182). -/
theorem step_ldK_of_none (h : lowestKeyDown s = none) : step s = .next s := by
  rw [step_ldK hf hw, exec_ldK_of_none x (s := s.fetched) h, instrAddr_fetched hf.pc_lt]
  rfl

theorem step_ldK_of_some {k : Fin 16} (h : lowestKeyDown s = some k) :
    step s = .next (s.fetched.setV x (BitVec.ofNat 8 k.val)) := by
  rw [step_ldK hf hw, exec_ldK_of_some x (s := s.fetched) h]

end

/-! ### The obligations -/

/-- Settles O38: with nothing scheduled every step is the cycle that does nothing, and a plan is run event by event. -/
theorem spinningChangesNothing : Obligations.SpinningChangesNothing := by
  unfold Obligations.SpinningChangesNothing
  intro k s h
  refine ⟨fun hsched => run_of_step_self ?_ k, fun plan hplan => ⟨hplan, run_plan_of_spinning hplan.inputs h⟩⟩
  rw [step, stepUnder_of_empty hsched]
  exact cycle_of_spinning h

/-- Settles O52: the wait is a step that leaves the state as it is; with a key down the search finds the lowest. -/
theorem keyWaitRepeatsUntilAKeyIsDown : Obligations.KeyWaitRepeatsUntilAKeyIsDown := by
  unfold Obligations.KeyWaitRepeatsUntilAKeyIsDown
  intro s x hf hw
  constructor
  · exact fun hup => run_of_step_self (step_ldK_of_none hf hw (lowestKeyDown_eq_none.mpr hup))
  · intro k hk hlow
    have hpc : s.fetched.pc.toNat = s.pc.toNat + 2 :=
      (BitVec.toNat_ofNat ..).trans (Nat.mod_eq_of_lt (by have := hf.pc_lt; omega))
    refine ⟨_, step_ldK_of_some hf hw (lowestKeyDown_of_lowest hk hlow), hpc, ?_, regsKept_setV s.fetched x _, rfl⟩
    rw [getV_setV_self, toNat_ofNat_byte (by omega)]

end Sys2Proof
end

section
/-! Memory (spec/20_memory.md): its canonical form, the bytes that become code, and what Init, LoadRom and Fx29 rely
on. -/

namespace Sys2Proof

open Sys2Proof.Machine Sys2Proof.Claims

/-! ### Canonical memories -/

section
variable {lo : Option Nat} {m : Memory} {a : Nat} {v : Byte}

/-- The listed byte of the first address differs from the content after Init, and the rest lies above it. -/
theorem wfAbove_cons (h : Memory.wfAbove lo ((a, v) :: m) = true) :
    v ≠ initByte a ∧ Memory.wfAbove (some a) m = true := by
  simp only [Memory.wfAbove, Bool.and_eq_true, Bool.not_eq_true', decide_eq_false_iff_not] at h
  obtain ⟨⟨-, hv⟩, hm⟩ := h
  exact ⟨hv, hm⟩

theorem read_cons_self : Memory.read ((a, v) :: m) a = v := by
  simp only [Memory.read, if_true]

/-- Below its first address a canonical list reads as after Init. -/
theorem read_cons_of_lt (h : Memory.wfAbove lo ((a, v) :: m) = true) {b : Nat} (hb : b < a) :
    Memory.read ((a, v) :: m) b = initByte b := by
  rw [Memory.read, if_neg (Nat.ne_of_lt hb)]
  exact Memory.read_of_wfAbove (wfAbove_cons h).2 (Nat.le_of_lt hb)

/-- Where two canonical lists read alike, the second has no first address below the first's: it would list a byte there
that the first reads as after Init. -/
theorem le_of_read_eq {lo' : Option Nat} {m' : Memory} {b : Nat} {w : Byte}
    (h : Memory.wfAbove lo ((a, v) :: m) = true) (h' : Memory.wfAbove lo' ((b, w) :: m') = true)
    (hread : ∀ k, Memory.read ((a, v) :: m) k = Memory.read ((b, w) :: m') k) : a ≤ b := by
  by_contra hlt
  have hb := hread b
  rw [read_cons_of_lt h (Nat.not_le.mp hlt), read_cons_self] at hb
  exact (wfAbove_cons h').1 hb.symm

/-- A list with an entry does not read as the empty one, which reads as after Init everywhere. -/
theorem read_cons_ne_nil (h : Memory.wfAbove lo ((a, v) :: m) = true) :
    Memory.read ((a, v) :: m) a ≠ Memory.read [] a := by
  rw [read_cons_self]
  exact (wfAbove_cons h).1

end

theorem eq_of_read_eq {m m' : Memory} {lo lo' : Option Nat} (h : Memory.wfAbove lo m = true)
    (h' : Memory.wfAbove lo' m' = true) (hread : ∀ k, m.read k = m'.read k) : m = m' := by
  induction m generalizing lo lo' m' with
  | nil =>
    cases m' with
    | nil => rfl
    | cons c m' => exact absurd (hread c.1).symm (read_cons_ne_nil h')
  | cons c m ih =>
    obtain ⟨a, v⟩ := c
    cases m' with
    | nil => exact absurd (hread a) (read_cons_ne_nil h)
    | cons c' m' =>
      obtain ⟨b, w⟩ := c'
      obtain rfl : a = b := Nat.le_antisymm (le_of_read_eq h h' hread) (le_of_read_eq h' h fun k => (hread k).symm)
      obtain rfl : v = w := by simpa only [read_cons_self] using hread a
      have hm := (wfAbove_cons h).2
      have hm' := (wfAbove_cons h').2
      refine congrArg _ (ih hm hm' fun k => ?_)
      by_cases hk : k = a
      · rw [Memory.read_of_wfAbove hm (Nat.le_of_eq hk), Memory.read_of_wfAbove hm' (Nat.le_of_eq hk)]
      · simpa only [Memory.read, if_neg hk] using hread k

/-! ### After Init -/

/-- What the memory after Init holds: the font, which lies below ENTRY, and 0 elsewhere (R40). -/
theorem read_reset (a : Nat) :
    State.reset.mem.read a = if fontBase ≤ a ∧ a < fontBase + 80 then fontByte (a - fontBase) else 0 := by
  have hfont : fontBase + 80 ≤ Config.entry := fontBase_add_le
  show initByteOf fontBase fontByte a = _
  simp only [initByteOf, Config.fontSize, ite_and]
  by_cases ha : a < Config.entry
  · rw [if_pos ha]
    rfl
  · rw [if_neg ha]
    split
    · rw [if_neg (by omega)]
    · rfl

/-! ### The obligations -/

/-- Settles O44: by induction on the list, whose first entry is where it first differs from the content after Init. -/
theorem canonicalMemoriesThatReadAlikeAreEqual : Obligations.CanonicalMemoriesThatReadAlikeAreEqual := by
  unfold Obligations.CanonicalMemoriesThatReadAlikeAreEqual
  exact fun _ _ => eq_of_read_eq

/-- Settles O43: the fetch reads the two registers back where Fx55 stored them. -/
theorem storedBytesAreFetchedAsCode : Obligations.StoredBytesAreFetchedAsCode := by
  unfold Obligations.StoredBytesAreFetchedAsCode
  intro s t u x r q i rest hstore ht _ hmem hf hq hqr hpc hd
  obtain ⟨hin, hout⟩ := storeRegistersWritesThemInOrder s x
  by_cases hfits : s.idx.toNat + x.val < 4096
  · obtain ⟨t', ht', hbytes, -, -⟩ := hin hfits
    cases ht'.symm.trans hstore
    have hr : r ≤ x := Fin.le_def.mpr (by have := Fin.le_def.mp hq; omega)
    have hhi : u.mem.read u.pc.toNat = s.getV r := by rw [hmem, hpc]; exact hbytes r hr
    have hlo : u.mem.read (u.pc.toNat + 1) = s.getV q := by rw [hmem, hpc, Nat.add_assoc, ← hqr]; exact hbytes q hq
    exact stepRunsTheDecodedInstruction u i rest hf (by rw [hhi, hlo]; exact hd)
  · cases (hout (Nat.not_lt.mp hfits)).symm.trans hstore
    cases ht

/-- Settles O56: the three ends of LoadRom, with the bytes copied read back one by one. -/
theorem loadRomCopiesOrRejects : Obligations.LoadRomCopiesOrRejects := by
  unfold Obligations.LoadRomCopiesOrRejects
  intro s bytes rest hsched
  rw [step_of_host hsched, hostStep]
  rcases loadRom_cases bytes { s with schedule := rest } with ⟨hs, hlen, h⟩ | ⟨hs, hlen, h⟩ | ⟨hs, h⟩ <;> rw [h]
  · exact ⟨fun _ hle => absurd hle (Nat.not_le.mpr hlen), fun _ _ => rfl, fun hne => absurd hs hne⟩
  · exact ⟨fun _ _ => ⟨_, rfl, rfl, fun _ hk => read_copyBytes_add hk, memKeptOutside_copyBytes s _ bytes, rfl⟩,
      fun _ hgt => absurd hlen (Nat.not_le.mpr hgt), fun hne => absurd hs hne⟩
  · exact ⟨fun hcr => absurd hcr hs, fun hcr => absurd hcr hs, fun _ => rfl⟩

/-- Settles O58: glyph `d` begins at byte `d * 5` of the font, which LoadRom does not reach. -/
theorem glyphAddressHoldsTheGlyph : Obligations.GlyphAddressHoldsTheGlyph := by
  unfold Obligations.GlyphAddressHoldsTheGlyph
  refine ⟨fontInPlace_reset, fun s t bytes hfont h => ?_, fun s x r hfont hr => ?_⟩
  · rcases loadRom_cases bytes s with ⟨-, -, hl⟩ | ⟨-, -, hl⟩ | ⟨-, hl⟩ <;> cases hl.symm.trans h
    · exact hfont
    · exact hfont.copyBytes (Nat.le_refl _) bytes
  · refine ⟨_, rfl, ?_⟩
    show s.mem.read ((glyphAddr (s.lowNibble x).val).toNat + r) = _
    rw [toNat_glyphAddr (s.lowNibble x).isLt, Nat.add_assoc]
    exact hfont _ (by have := (s.lowNibble x).isLt; omega)

/-- Settles O57: Init makes the reset state, on which each part evaluates but for the memory. -/
theorem initLeavesTheResetState : Obligations.InitLeavesTheResetState := by
  unfold Obligations.InitLeavesTheResetState
  intro s rest hsched
  refine ⟨_, step_of_host hsched, rfl, rfl, fun k => Vector.getElem_replicate .., fun k => Vector.getElem_replicate ..,
    pixel_blankDisplay, rfl, fun r => Vector.getElem_replicate .., rfl, rfl, rfl, rfl, fontBase_add_le, read_reset⟩

end Sys2Proof
end

section
/-! Skips, the random draw, the display and the timers: what is left of the statements about one operation. -/

namespace Sys2Proof

open Sys2Proof.Machine Sys2Proof.Claims

/-! ### Skips -/

/-- The three ends of `skipIf`, for a condition in other words (R104). -/
theorem skipsWhen_of_skipIf {i : Instr} {s : State} {b : Bool} {c : Prop} (h : exec i s = skipIf b s)
    (hc : b = true ↔ c) : SkipsWhen i s c := by
  rw [skipIf_eq] at h
  refine ⟨fun hn => ?_, fun hy hlt => ?_, fun hy hge => ?_⟩ <;> rw [h]
  · rw [if_pos (Bool.eq_false_of_not_eq_true (mt hc.mp hn))]
  · rw [if_neg (by simp [hc.mpr hy]), if_pos (show s.pc.toNat + 2 < Config.memSize from hlt)]
  · rw [if_neg (by simp [hc.mpr hy]), if_neg (show ¬ s.pc.toNat + 2 < Config.memSize from Nat.not_lt.mpr hge)]
    rfl

/-! ### The display -/

theorem display_ext {d d' : Display} (h : ∀ px py, pixel d px py = pixel d' px py) : d = d' := by
  refine Vector.ext fun py hpy => BitVec.eq_of_getLsbD_eq fun px _ => ?_
  simpa only [pixel, dif_pos hpy] using h px py

/-- What a sprite covers depends on its origin, I and memory alone. -/
theorem covers_congr {s t : State} {x y : Reg} (hx : t.getV x = s.getV x) (hy : t.getV y = s.getV y)
    (hidx : t.idx = s.idx) (hmem : t.mem = s.mem) (n px py : Nat) : covers t x y n px py = covers s x y n px py := by
  simp only [covers, hx, hy, hidx, hmem]

/-- The state a draw inside memory leaves (R161, R162). -/
def drew (s : State) (x y : Reg) (n : Nat) : State :=
  { s.setV Reg.vf (collisionFlag (drawn s x y n).hit) with disp := (drawn s x y n).disp }

/-- A draw keeps the origin of the sprite unless VF holds a part of it, so the next one covers the same pixels. -/
theorem covers_drew {s : State} {x y : Reg} (hx : x ≠ Reg.vf) (hy : y ≠ Reg.vf) (n px py : Nat) :
    covers (drew s x y n) x y n px py = covers s x y n px py :=
  covers_congr (getV_setV_ne s _ hx) (getV_setV_ne s _ hy) rfl rfl n px py

theorem getV_vf_drew_iff (s : State) (x y : Reg) (n : Nat) : (drew s x y n).getV Reg.vf = 1 ↔ Collides s x y n := by
  have hvf : (drew s x y n).getV Reg.vf = collisionFlag (drawn s x y n).hit := getV_setV_self s Reg.vf _
  rw [hvf]
  by_cases h : Collides s x y n
  · simp [collisionFlag_drawn_of_collides h, h]
  · simp [collisionFlag_drawn_of_not_collides h, h]

theorem flatPixel_row_major (d : Display) {px : Nat} (py : Nat) (hx : px < 64) :
    flatPixel d (py * 64 + px) = pixel d px py := by
  rw [flatPixel, show (py * 64 + px) % 64 = px by omega, show (py * 64 + px) / 64 = py by omega]

/-! ### The timers -/

theorem toNat_countDown (b : Byte) : (countDown b).toNat = b.toNat - 1 := by
  unfold countDown
  split
  · next h => rw [h]; rfl
  · next h =>
    have h0 : b.toNat ≠ 0 := fun e => h (BitVec.eq_of_toNat_eq e)
    have h1 : (1 : Byte).toNat = 1 := rfl
    rw [BitVec.toNat_sub]
    omega

/-! ### The obligations -/

/-- Settles O36: each is a skip on a test of bytes, which are equal as numbers when they are equal. -/
theorem registerSkipsFollowTheirCondition : Obligations.RegisterSkipsFollowTheirCondition := by
  unfold Obligations.RegisterSkipsFollowTheirCondition
  refine fun s x y kk => ⟨skipsWhen_of_skipIf rfl ?_, skipsWhen_of_skipIf rfl ?_, skipsWhen_of_skipIf rfl ?_,
    skipsWhen_of_skipIf rfl ?_⟩ <;> simp only [decide_eq_true_eq, ne_eq, BitVec.toNat_inj]

/-- Settles O50: each is a skip on the key of the low nibble, down or up. -/
theorem keySkipsTestTheLowNibble : Obligations.KeySkipsTestTheLowNibble := by
  unfold Obligations.KeySkipsTestTheLowNibble
  intro s x k hk
  have hnib : s.lowNibble x = k := Fin.ext hk
  exact ⟨skipsWhen_of_skipIf rfl (by rw [hnib]), skipsWhen_of_skipIf rfl (by rw [hnib, Bool.not_eq_true'])⟩

/-- Settles O31: the draw counts itself, and the AND acts bit by bit. -/
theorem randomIsADrawMaskedByTheImmediate : Obligations.RandomIsADrawMaskedByTheImmediate := by
  unfold Obligations.RandomIsADrawMaskedByTheImmediate
  intro s x kk
  refine ⟨_, rfl, rfl, fun k _ => ?_, regsKept_setV s.draw.2 x _, ?_⟩
  · rw [getV_setV_self, BitVec.getLsbD_and, draw_fst]
  · exact ⟨rfl, rfl, ⟨rfl, rfl⟩, rfl, fun _ => rfl, ⟨rfl, rfl, rfl, rfl, rfl⟩⟩

/-- Settles O48: the second draw covers the same pixels, and a pixel toggled twice is as before. -/
theorem drawingTwiceRestoresTheDisplay : Obligations.DrawingTwiceRestoresTheDisplay := by
  unfold Obligations.DrawingTwiceRestoresTheDisplay
  intro s x y n hx hy hin
  refine ⟨drew s x y n, drew (drew s x y n) x y n, exec_drw_of_spriteInMemory x y hin,
    exec_drw_of_spriteInMemory (s := drew s x y n) x y hin, display_ext fun px py => ?_, ?_⟩
  · calc pixel (drawn (drew s x y n) x y n).disp px py
        = (pixel (drawn s x y n).disp px py ^^ covers (drew s x y n) x y n px py) := pixel_drawn _ x y n px py
      _ = ((pixel s.disp px py ^^ covers s x y n px py) ^^ covers s x y n px py) := by
          rw [pixel_drawn, covers_drew hx hy]
      _ = pixel s.disp px py := by rw [Bool.xor_assoc, Bool.xor_self, Bool.xor_false]
  · rw [getV_vf_drew_iff]
    simp only [Collides, covers_drew hx hy]

/-- Settles O49: element `py * 64 + px` is the pixel in column `px` of row `py`. -/
theorem flatDisplayIsRowMajor : Obligations.FlatDisplayIsRowMajor := by
  unfold Obligations.FlatDisplayIsRowMajor
  intro d
  refine ⟨by rw [flatDisplay, List.length_map, List.length_range], fun px py hx hy => ?_⟩
  rw [flatDisplay, List.getElem?_map, List.getElem?_range (by omega), Option.map_some, flatPixel_row_major d py hx]

/-- Settles O54: the scheduled Tick is the step, and each counter stops at 0. -/
theorem tickCountsBothTimersDown : Obligations.TickCountsBothTimersDown := by
  unfold Obligations.TickCountsBothTimersDown
  exact fun s _ hsched => ⟨_, step_of_host hsched, toNat_countDown s.dt, toNat_countDown s.st, rfl⟩

end Sys2Proof
end

section
/-! The layer for RESET_POLICY = refuse_unwritten_read (spec/10_state.md R40): what a tracked step is, by the next
event, and the record of the cells that hold a value after it. -/

namespace Sys2Proof

open Sys2Proof.Machine Sys2Proof.Claims

/-! ### An instruction's run -/

/-- The record after an instruction that ended in `t`: with the cells it wrote, or, where it raised, as it was (R205). -/
def writtenAfter (i : Instr) (m : Tracked) (t : State) : Written :=
  if t.status = .ready then (cellsWritten i m.state).foldl Written.mark m.written else m.written

theorem trackedExec_of_unwritten {i : Instr} {m : Tracked} (h : ∃ c ∈ cellsRead i, m.written.has c = false) :
    trackedExec i m = .refused .unwrittenRead := by
  obtain ⟨c, hc, hno⟩ := h
  refine if_neg fun hall => ?_
  cases hno.symm.trans (List.all_eq_true.mp hall c hc)

theorem trackedExec_of_written {i : Instr} {m : Tracked} (h : ∀ c ∈ cellsRead i, m.written.has c = true) :
    trackedExec i m = withWritten (writtenAfter i m) (exec i m.state) :=
  if_pos (List.all_eq_true.mpr h)

/-- What Fx0A writes depends on the keypad alone, and no other row on the state, so the fetch does not change it. -/
theorem cellsWritten_fetched (i : Instr) (s : State) : cellsWritten i (unqueued s).fetched = cellsWritten i s := by
  cases i <;> rfl

/-! ### A tracked step, by the next event -/

/-- The next step is a cycle that passes its fetch and runs `i`. -/
structure Runs (i : Instr) (s : State) : Prop where
  cycle : (nextEvent s).1 = .cycle
  ready : s.status = .ready
  pc_lt : s.pc.toNat + 2 < 4096
  decodes : decodeWord (wordAt s s.pc.toNat) = .ok i

theorem Runs.stepUnder_eq {i : Instr} {s : State} (h : Runs i s) (p : NearMissPolicy) :
    stepUnder p s = exec i (unqueued s).fetched :=
  stepUnder_of_instr h.ready h.cycle h.pc_lt h.decodes

theorem Runs.unique {i j : Instr} {s : State} (h : Runs i s) (hj : decodeWord (wordAt s s.pc.toNat) = .ok j) :
    j = i := by
  cases hj.symm.trans h.decodes
  rfl

theorem readsUnwritten_iff {m : Tracked} :
    ReadsUnwritten m ↔ ∃ i, Runs i m.state ∧ ∃ c ∈ cellsRead i, m.written.has c = false :=
  ⟨fun ⟨hc, hs, hpc, i, hi, hread⟩ => ⟨i, ⟨hc, hs, hpc, hi⟩, hread⟩,
    fun ⟨i, ⟨hc, hs, hpc, hi⟩, hread⟩ => ⟨hc, hs, hpc, i, hi, hread⟩⟩

section
variable {p : NearMissPolicy} {m : Tracked}

theorem trackedStepUnder_of_cycle (hc : (nextEvent m.state).1 = .cycle) :
    trackedStepUnder p m = trackedCycle p ⟨unqueued m.state, m.written⟩ := by
  rw [trackedStepUnder, hc, nextEvent_snd]
  rfl

theorem trackedStepUnder_of_runs {i : Instr} (h : Runs i m.state) :
    trackedStepUnder p m = trackedExec i ⟨(unqueued m.state).fetched, m.written⟩ := by
  have hs : (unqueued m.state).status = .ready := h.ready
  have hf : fetch (unqueued m.state) = .ok (wordAt m.state m.state.pc.toNat, (unqueued m.state).fetched) :=
    fetch_ok (s := unqueued m.state) h.pc_lt
  rw [trackedStepUnder_of_cycle h.cycle]
  simp only [trackedCycle, hs, hf, h.decodes]

/-- Any other cycle is the machine's, and gives no cell a value. -/
theorem trackedStepUnder_of_not_runs (hc : (nextEvent m.state).1 = .cycle) (h : ∀ i, ¬ Runs i m.state) :
    trackedStepUnder p m = withWritten (fun _ => m.written) (stepUnder p m.state) := by
  rw [trackedStepUnder_of_cycle hc, stepUnder_of_cycle hc]
  unfold trackedCycle
  split
  · next op t hready hf =>
    have hs : (unqueued m.state).status = .ready := hready
    have hcycle : cycle p (unqueued m.state) = execute p op t := by
      simp only [cycle, hs, hf]
    obtain ⟨hpc, rfl, -⟩ := fetch_eq_ok.mp hf
    split
    · next i hi => exact absurd ⟨hc, hs, hpc, hi⟩ (h i)
    · exact congrArg _ hcycle.symm
  · rfl

theorem trackedStepUnder_of_init (h : (nextEvent m.state).1 = .host .init) :
    trackedStepUnder p m = withWritten (fun _ => Written.none) (stepUnder p m.state) := by
  rw [trackedStepUnder, stepUnder, h]
  rfl

theorem trackedStepUnder_of_host {op : HostOp} (h : (nextEvent m.state).1 = .host op) (hop : op ≠ .init) :
    trackedStepUnder p m = withWritten (fun _ => m.written) (stepUnder p m.state) := by
  rw [trackedStepUnder, stepUnder, h]
  cases op
  case init => exact absurd rfl hop
  all_goals rfl

end

/-! ### The machine itself never refuses an unwritten read -/

theorem cycle_ne_unwrittenRead (p : NearMissPolicy) (s : State) : cycle p s ≠ .refused .unwrittenRead := by
  intro h
  unfold cycle at h
  split at h
  · split at h
    · unfold execute at h
      split at h
      · cases (exec_eq _ _).symm.trans h
      · cases p <;> cases h
      all_goals cases h
    · cases h
  all_goals cases h

theorem stepUnder_ne_unwrittenRead (p : NearMissPolicy) (s : State) : stepUnder p s ≠ .refused .unwrittenRead := by
  rcases nextEvent_cases s with hc | ⟨op, -, hh⟩
  · rw [stepUnder_of_cycle hc]
    exact cycle_ne_unwrittenRead p _
  · rw [stepUnder_of_host hh]
    cases op with
    | loadRom bytes =>
      rcases loadRom_cases bytes (unqueued s) with ⟨-, -, h⟩ | ⟨-, -, h⟩ | ⟨-, h⟩ <;> simp [hostStep, h]
    | init | tick | setKeypad => exact fun h => nomatch h

theorem withWritten_eq_refused {f : State → Written} {o : Out} {r : Refusal} (h : withWritten f o = .refused r) :
    o = .refused r := by
  cases o <;> cases h
  rfl

/-! ### The record of the cells that hold a value -/

/-- `f` gives the cells that hold a value after the step, as R40 says it for each kind of step. -/
def Records (p : NearMissPolicy) (m : Tracked) (f : State → Written) : Prop :=
  ∀ t, stepUnder p m.state = .next t →
    (m.state.schedule.head? = some (.host .init) → f t = Written.none) ∧
    (∀ op, op ≠ .init → m.state.schedule.head? = some (.host op) → f t = m.written) ∧
    ((nextEvent m.state).1 = .cycle →
      (t.status ≠ .ready → f t = m.written) ∧
      ((∀ i, decodeWord (wordAt m.state m.state.pc.toNat) ≠ .ok i) → f t = m.written) ∧
      (∀ i, decodeWord (wordAt m.state m.state.pc.toNat) = .ok i → t.status = .ready →
        ∀ c, (f t).has c = true ↔ m.written.has c = true ∨ c ∈ cellsWritten i m.state))

section
variable {p : NearMissPolicy} {m : Tracked}

theorem head?_ne_host_of_cycle {s : State} (hc : (nextEvent s).1 = .cycle) (op : HostOp) :
    s.schedule.head? ≠ some (.host op) := by
  intro h
  rcases nextEvent_fst_eq_cycle.mp hc with he | he <;> simp [he] at h

theorem has_writtenAfter {i : Instr} {t : State} (ht : t.status = .ready) (c : RegCell) :
    (writtenAfter i ⟨(unqueued m.state).fetched, m.written⟩ t).has c = true ↔
      m.written.has c = true ∨ c ∈ cellsWritten i m.state := by
  rw [writtenAfter, if_pos ht, has_foldl_mark, cellsWritten_fetched]

theorem writtenAfter_of_not_ready {i : Instr} {t : State} (ht : t.status ≠ .ready) :
    writtenAfter i ⟨(unqueued m.state).fetched, m.written⟩ t = m.written :=
  if_neg ht

theorem records_of_runs {i : Instr} (h : Runs i m.state) :
    Records p m (writtenAfter i ⟨(unqueued m.state).fetched, m.written⟩) := by
  intro t _
  refine ⟨fun hh => absurd hh (head?_ne_host_of_cycle h.cycle _),
    fun op _ hh => absurd hh (head?_ne_host_of_cycle h.cycle op), fun _ =>
    ⟨writtenAfter_of_not_ready, fun hno => absurd h.decodes (hno i), fun j hj ht c => ?_⟩⟩
  rw [h.unique hj]
  exact has_writtenAfter ht c

/-- A cycle at a word that decodes runs its instruction, or is not Ready, or halts in its fetch. -/
theorem records_of_not_runs (hc : (nextEvent m.state).1 = .cycle) (h : ∀ i, ¬ Runs i m.state) :
    Records p m fun _ => m.written := by
  intro t hstep
  rw [stepUnder_of_cycle hc] at hstep
  refine ⟨fun hh => absurd hh (head?_ne_host_of_cycle hc _), fun _ _ _ => rfl, fun _ =>
    ⟨fun _ => rfl, fun _ => rfl, fun i hi ht => ?_⟩⟩
  obtain ⟨hs, ⟨e, -, rfl⟩ | ⟨hpc, -⟩⟩ := cycle_next_cases hstep
  · cases ht
  · exact absurd ⟨hc, hs, hpc, hi⟩ (h i)

theorem records_of_init (h : (nextEvent m.state).1 = .host .init)
    (hhead : m.state.schedule.head? = some (.host .init)) :
    Records p m fun _ => Written.none := by
  intro t _
  rw [hhead, h]
  refine ⟨fun _ => rfl, fun op hop he => ?_, fun hc => nomatch hc⟩
  cases he
  exact absurd rfl hop

theorem records_of_host {op : HostOp} (h : (nextEvent m.state).1 = .host op) (hop : op ≠ .init)
    (hhead : m.state.schedule.head? = some (.host op)) : Records p m fun _ => m.written := by
  intro t _
  rw [hhead, h]
  refine ⟨fun he => ?_, fun _ _ _ => rfl, fun hc => nomatch hc⟩
  cases he
  exact absurd rfl hop

/-- The step is refused exactly where it is a cycle that reads a cell without a value, and else it is the machine's,
with a right record. -/
def StepOrRefusal (p : NearMissPolicy) (m : Tracked) : Prop :=
  (trackedStepUnder p m = .refused .unwrittenRead ↔ ReadsUnwritten m) ∧
    (¬ ReadsUnwritten m →
      ∃ f : State → Written, trackedStepUnder p m = withWritten f (stepUnder p m.state) ∧ Records p m f)

theorem stepOrRefusal_of_withWritten {f : State → Written} (hn : ¬ ReadsUnwritten m)
    (h : trackedStepUnder p m = withWritten f (stepUnder p m.state)) (hf : Records p m f) : StepOrRefusal p m :=
  ⟨⟨fun hr => absurd (withWritten_eq_refused (h.symm.trans hr)) (stepUnder_ne_unwrittenRead p m.state),
    fun hr => absurd hr hn⟩, fun _ => ⟨f, h, hf⟩⟩

theorem stepOrRefusal_of_runs {i : Instr} (h : Runs i m.state) : StepOrRefusal p m := by
  by_cases hread : ∃ c ∈ cellsRead i, m.written.has c = false
  · have hru : ReadsUnwritten m := readsUnwritten_iff.mpr ⟨i, h, hread⟩
    have hrefused := (trackedStepUnder_of_runs (p := p) h).trans (trackedExec_of_unwritten hread)
    exact ⟨iff_of_true hrefused hru, fun hn => absurd hru hn⟩
  · have hall : ∀ c ∈ cellsRead i, m.written.has c = true := by simpa using hread
    refine stepOrRefusal_of_withWritten (fun hru => ?_) ?_ (records_of_runs h)
    · obtain ⟨j, hj, hjread⟩ := readsUnwritten_iff.mp hru
      exact hread (h.unique hj.decodes ▸ hjread)
    · rw [trackedStepUnder_of_runs h, h.stepUnder_eq]
      exact trackedExec_of_written hall

theorem stepOrRefusal (p : NearMissPolicy) (m : Tracked) : StepOrRefusal p m := by
  rcases nextEvent_cases m.state with hc | ⟨op, hhead, hh⟩
  · by_cases h : ∃ i, Runs i m.state
    · obtain ⟨i, hi⟩ := h
      exact stepOrRefusal_of_runs hi
    · have hno : ∀ i, ¬ Runs i m.state := not_exists.mp h
      refine stepOrRefusal_of_withWritten (fun hru => ?_) (trackedStepUnder_of_not_runs hc hno)
        (records_of_not_runs hc hno)
      obtain ⟨i, hi, -⟩ := readsUnwritten_iff.mp hru
      exact hno i hi
  · have hn : ¬ ReadsUnwritten m := fun ⟨hc, _⟩ => by cases hh.symm.trans hc
    by_cases hop : op = .init
    · subst hop
      exact stepOrRefusal_of_withWritten hn (trackedStepUnder_of_init hh) (records_of_init hh hhead)
    · exact stepOrRefusal_of_withWritten hn (trackedStepUnder_of_host hh hop) (records_of_host hh hop hhead)

end

/-! ### The obligations -/

/-- Settles O59: by the next event, and for a cycle by whether it comes to run an instruction. -/
theorem trackedStepIsTheStepOrARefusal : Obligations.TrackedStepIsTheStepOrARefusal := by
  unfold Obligations.TrackedStepIsTheStepOrARefusal
  exact stepOrRefusal

/-- Settles O60: a fetchable state at a decodable word runs its instruction, on which the layer's check is made. -/
theorem unwrittenReadsAreRefused : Obligations.UnwrittenReadsAreRefused := by
  unfold Obligations.UnwrittenReadsAreRefused
  intro p m i rest hf hd
  have h : Runs i m.state :=
    ⟨nextEvent_fst_eq_cycle.mpr (.inl hf.nothing_scheduled), hf.ready, hf.pc_lt, (decodeBytes_eq_ok.mp hd).1⟩
  rw [trackedStepUnder_of_runs h, h.stepUnder_eq]
  refine ⟨trackedExec_of_unwritten (m := ⟨(unqueued m.state).fetched, m.written⟩), fun hall => ?_⟩
  rw [trackedExec_of_written (m := ⟨(unqueued m.state).fetched, m.written⟩) hall, exec_eq]
  exact ⟨_, rfl, rfl, has_writtenAfter, writtenAfter_of_not_ready⟩

end Sys2Proof
end
